-- ==== Sys2Proof/Word.lean ====
section
/-! DEFINITION. The word types of the BFX command interface: bytes (`00_scope.md` R8, BYTE_BITS) and the 64-bit
command and response words (R8, CMD_BITS and RSP_BITS). Bit 0 of a word is its least significant bit (R10). -/

namespace Sys2Proof

/-- One byte of the buffer, of a payload or of the byte transport. -/
abbrev Byte := BitVec 8

/-- A command word or a response word (R49). -/
abbrev Word := BitVec 64

end Sys2Proof
end

