-- ==== Sys2Proof/Config.lean ====
section
/-! DEFINITION. The block's parameters (`00_scope.md` R8): the constants the spec fixes, the value the model's own
reset state gives the open parameter LMAX, and the free values (opaque, without a body). -/

namespace Sys2Proof.Config

/-- MAX_WIDTH, the largest read width (R8). -/
abbrev maxWidth : Nat := 32

/-- MIN_WIDTH, the smallest read width (R8). -/
abbrev minWidth : Nat := 1

/-- RESULT_BITS, the width of a read result, unsigned and zero-extended (R8). -/
abbrev resultBits : Nat := 32

/-- ACC_BITS, the least accumulator width, 7 + 32 (R8). -/
abbrev accBits : Nat := 39

/-- MAX_SPAN_BYTES, the most bytes one READ touches (R8). -/
abbrev maxSpanBytes : Nat := 5

/-- BYTE_BITS (R8). -/
abbrev byteBits : Nat := 8

/-- POS_BITS, the width of the position field (R8). -/
abbrev posBits : Nat := 48

/-- WIDTH_BITS, the width of the width field (R8). -/
abbrev widthBits : Nat := 6

/-- LEN_BITS, the width of the length field (R8). -/
abbrev lenBits : Nat := 48

/-- CMD_BITS, the width of a command word (R8). -/
abbrev cmdBits : Nat := 64

/-- RSP_BITS, the width of a response word (R8). -/
abbrev rspBits : Nat := 64

/-- NPORTS, the number of command ports (R8). -/
abbrev nports : Nat := 1

/-- The least LMAX a block may have (R8). -/
abbrev lmaxLeast : Nat := 1

/-- The greatest LMAX a block may have, 2^45 (R8). -/
abbrev lmaxGreatest : Nat := 2 ^ 45

/-- DESIGN CHOICE (log entry 1). LMAX is open (R8). The machine carries it in `State.lmax`, which no step changes;
this is the value `State.reset` gives it: the size the spec says a block needs to run the source's tests (R83). No
statement rests on it. Unsafe: a claim about runs from `State.reset` alone would be about this LMAX only. -/
abbrev resetLmax : Nat := 1048576

/-- LATENCY, the open finite time from a command to its response (R8, R128). A natural number, so finite, and nothing in
the model reads it: "no rule of this spec depends on it, and a model keeps no time". -/
opaque latency : Nat

/-- FREE VALUE (log entry 5). How the race of R120 comes out when reset arrives during a transaction: `true` means the
transaction completes with its response before the reset, `false` that it has no effect and no response. The step
applies it to the draw counter `State.draws`. -/
opaque resetRaceCompletes : Nat → Bool

end Sys2Proof.Config
end

