-- ==== Sys2Proof/Syntax.lean ====
section
/-! DEFINITION. The three commands of the BFX command interface (`30_encoding.md` R49, R50), one constructor for each
row of spec/opcode_table.json. A word that is none of them is no instruction: it is an illegal command (R62), which the
decoder names and the machine answers (`41_lifecycle.md` R89). -/

namespace Sys2Proof

/-- A command with its operands as naturals, read unsigned from their fields (R55). -/
inductive Instr where
  /-- READ `<pos>, <width>` (R66): the bit offset POS and the bit count WIDTH. -/
  | read (pos width : Nat)
  /-- CONSTRUCT `<len>, [bytes]` (R81): the byte count LEN and the payload that follows the command word. -/
  | construct (len : Nat) (payload : List Byte)
  /-- DESTROY (R86): no operands. -/
  | destroy
deriving DecidableEq, Repr

end Sys2Proof
end

