-- ==== Sys2Proof/WellFormed.lean ====
section
/-! DEFINITION. Which commands can be written down: the assembler's refusals of `30_encoding.md` R63, as a check on the
command. A READ width of 0 or of 33 to 63 is well formed (R55): it executes as INVALID_WIDTH. -/

namespace Sys2Proof

/-- R63: "The assembler refuses `<pos>` or `<len>` of 2^48 or more, `<width>` of 64 or more, ... and a byte list whose
length is not `<len>`". A byte above 255 is no `Byte`. -/
def Instr.wellFormed : Instr → Bool
  | .read pos width => decide (pos < 2 ^ Config.posBits) && decide (width < 2 ^ Config.widthBits)
  | .construct len payload => decide (len < 2 ^ Config.lenBits) && decide (payload.length = len)
  | .destroy => true

/-- The check as a proposition. -/
abbrev Instr.WF (i : Instr) : Prop := i.wellFormed = true

end Sys2Proof
end

