-- ==== Sys2Proof/Decode.lean ====
section
/-! DEFINITION. The command port's bytes, decoded and encoded (`30_encoding.md` R50 to R64): the byte order of words on the
byte transport (`20_memory.md` R36), the command word's fields, the framing of transactions, the decoder, total on any
bytes and rejecting by name, and the encoder. -/

namespace Sys2Proof

/-! ## Words as bytes -/

/-- The eight bytes of a word in transport order: "the most significant byte (bits 63:56) goes first" (R36). -/
def wordBytes (w : Word) : List Byte :=
  [w.extractLsb 63 56, w.extractLsb 55 48, w.extractLsb 47 40, w.extractLsb 39 32,
   w.extractLsb 31 24, w.extractLsb 23 16, w.extractLsb 15 8, w.extractLsb 7 0]

/-- The word the next eight bytes form, and the bytes after it; `none` where fewer than eight are there (R36). -/
def takeWord : List Byte → Option (Word × List Byte)
  | b7 :: b6 :: b5 :: b4 :: b3 :: b2 :: b1 :: b0 :: rest =>
    some (b7 ++ b6 ++ b5 ++ b4 ++ b3 ++ b2 ++ b1 ++ b0, rest)
  | _ => none

/-! ## The fields of a command word (R50 to R55) -/

/-- OP = `cmd[63:62]` (R50). -/
def opField (cmd : Word) : BitVec 2 := cmd.extractLsb 63 62

/-- READ's reserved field `cmd[61:54]` (R51). -/
def readReserved (cmd : Word) : BitVec 8 := cmd.extractLsb 61 54

/-- WIDTH = `cmd[53:48]` (R51, R55). -/
def widthField (cmd : Word) : BitVec 6 := cmd.extractLsb 53 48

/-- POS = `cmd[47:0]` (R51, R55). -/
def posField (cmd : Word) : BitVec 48 := cmd.extractLsb 47 0

/-- CONSTRUCT's reserved field `cmd[61:48]` (R52). -/
def constructReserved (cmd : Word) : BitVec 14 := cmd.extractLsb 61 48

/-- LEN = `cmd[47:0]` (R52, R55). -/
def lenField (cmd : Word) : BitVec 48 := cmd.extractLsb 47 0

/-- DESTROY's reserved field `cmd[61:0]` (R53). -/
def destroyReserved (cmd : Word) : BitVec 62 := cmd.extractLsb 61 0

/-! ## Decoding -/

/-- Why a command word is illegal (R62). -/
inductive IllegalReason where
  /-- OP = `11` (R54). -/
  | reservedOpcode
  /-- A READ word with `cmd[61:54] ≠ 0` (R51). -/
  | readReservedField
  /-- A CONSTRUCT word with `cmd[61:48] ≠ 0` (R52). -/
  | constructReservedField
  /-- A DESTROY word with `cmd[61:0] ≠ 0` (R53). -/
  | destroyReservedField
deriving DecidableEq, Repr

/-- What one transaction asks for: a command, or the ILLEGAL_COMMAND answer (R61). -/
inductive Transaction where
  | command (i : Instr)
  | illegal (why : IllegalReason)
deriving DecidableEq, Repr

/-- How many payload bytes follow a command word, from OP and bits 47:0 alone, reserved bits set or not (R56, R57). -/
def payloadLength (cmd : Word) : Nat :=
  if opField cmd = 0b01#2 then (lenField cmd).toNat else 0

/-- The decoder of R61, total over 64-bit words; `payload` is what was taken after the word. -/
def decodeWord (cmd : Word) (payload : List Byte) : Transaction :=
  if opField cmd = 0b00#2 then
    if readReserved cmd ≠ 0 then .illegal .readReservedField
    else .command (.read (posField cmd).toNat (widthField cmd).toNat)
  else if opField cmd = 0b01#2 then
    if constructReserved cmd ≠ 0 then .illegal .constructReservedField
    else .command (.construct (lenField cmd).toNat payload)
  else if opField cmd = 0b10#2 then
    if destroyReserved cmd ≠ 0 then .illegal .destroyReservedField
    else .command .destroy
  else .illegal .reservedOpcode

/-- What the port's pending bytes hold. -/
inductive Framed where
  /-- No byte is pending. -/
  | idle
  /-- Fewer than the eight bytes of a command word are pending. -/
  | shortWord
  /-- A CONSTRUCT word is pending with fewer than LEN bytes after it. -/
  | shortPayload
  /-- A whole transaction is pending, and the bytes after it. -/
  | ready (t : Transaction) (rest : List Byte)
deriving DecidableEq, Repr

/-- The next transaction of the port's bytes: eight bytes of command word and, for OP = `01`, LEN payload bytes (R57). -/
def decode (bytes : List Byte) : Framed :=
  match takeWord bytes with
  | none => if bytes.isEmpty then .idle else .shortWord
  | some (cmd, rest) =>
    if rest.length < payloadLength cmd then .shortPayload
    else .ready (decodeWord cmd (rest.take (payloadLength cmd))) (rest.drop (payloadLength cmd))

/-! ## Encoding -/

/-- The command word of a command, its fields most significant first (R51, R52, R53). -/
def encodeWord : Instr → Word
  | .read pos width => 0b00#2 ++ 0#8 ++ BitVec.ofNat 6 width ++ BitVec.ofNat 48 pos
  | .construct len _ => 0b01#2 ++ 0#14 ++ BitVec.ofNat 48 len
  | .destroy => 0b10#2 ++ 0#62

/-- The payload a command carries: CONSTRUCT's bytes in list order, none for the others (R50, R64). -/
def payloadOf : Instr → List Byte
  | .read _ _ => []
  | .construct _ payload => payload
  | .destroy => []

/-- A command's bytes on the transport: its word, then its payload (R36, R64). -/
def encode (i : Instr) : List Byte := wordBytes (encodeWord i) ++ payloadOf i

/-! ## The opcode table's words -/

/-- The transaction whose bits are `w`, numbered as spec/opcode_table.json numbers them: bits 63 to 0 are the command word,
and payload byte k, where there is one, is bits 64 + 8k + 7 to 64 + 8k; every bit from `nbits` up is 0. -/
def tableBytes (nbits w : Nat) : List Byte :=
  wordBytes (BitVec.ofNat 64 (w % 2 ^ nbits)) ++
    (List.range (payloadLength (BitVec.ofNat 64 (w % 2 ^ nbits)))).map
      fun k => BitVec.ofNat 8 ((w % 2 ^ nbits) >>> (64 + 8 * k))

/-- The command this file's decoder reads from a table word; `none` where it is illegal. -/
def decodeTableWord (nbits w : Nat) : Option Instr :=
  match decode (tableBytes nbits w) with
  | .ready (.command i) _ => some i
  | _ => none

end Sys2Proof
end

