-- ==== Sys2Proof/Machine/State.lean ====
section
/-! DEFINITION. The state of one BFX block (`10_state.md` R17: V, LEN and BUF, "and nothing else is state"), the open
parameter LMAX it is built with, and the model's own record of the host interface: the bytes the host sends, the responses
it has received, what the reset input does, and the counter of free draws. Also the STATUS names and the reasons a step can
stop. -/

namespace Sys2Proof.Machine

/-- The lifecycle bit V (R17, R18). -/
inductive Lifecycle where
  /-- V = 0: no buffer. -/
  | empty
  /-- V = 1: a buffer exists. -/
  | loaded
deriving DecidableEq, Repr

/-- Buffer bytes, in one canonical form (`Memory.WF` in Machine/Ops.lean): addresses strictly rising, and no entry equal to
what an unlisted address reads as. -/
abbrev Memory := List Host.Cell

/-- What the reset input does at one step (`70_reset_and_hazards.md` R119, R120). -/
inductive ResetEvent where
  /-- No reset: the block serves the port. -/
  | quiet
  /-- Reset arrives between two transactions. -/
  | betweenTransactions
  /-- Reset arrives while the transaction at the head of the port is under way: the race of R120. -/
  | duringTransaction
deriving DecidableEq, Repr

/-- The STATUS codes by name (`30_encoding.md` R59). Code 7 is reserved and has no name: it is never produced. -/
inductive Status where
  | ok
  | outOfRange
  | invalidWidth
  | notConstructed
  | alreadyConstructed
  | capacityExceeded
  | illegalCommand
deriving DecidableEq, Repr

/-- Why a step, or a host-side scan pass, stops. -/
inductive Fault where
  /-- Raised by the step: the host has no byte pending, so there is no transaction to serve (R129: the step is enabled "when
  a command is pending"). A stuck state. Safe. -/
  | portIdle
  /-- Raised by the step: the host sent fewer than the 8 bytes of a command word. R125 gives such a host no move, and the
  spec treats the run as stuck. Safe: no claim about what follows can be proved. -/
  | shortCommandWord
  /-- Raised by the step: the host sent fewer than LEN payload bytes after an OP = `01` word. R125 gives such a host no move.
  Safe, as above. -/
  | shortPayload
  /-- Raised by MemRead outside BUF[0..LEN-1] and by MemWrite outside BUF[0..LMAX-1], which `00_scope.md` R12 leaves
  undefined. No transaction reaches it (R72, R83). Safe. -/
  | bufferAccess
  /-- Raised by a host-side scan pass when a READ of the pass is not answered OK: R98, "A model treats an aborted pass as a
  fault of the host program". It carries the status, if the answer named one. Safe. -/
  | scanAborted (status : Option Status)
deriving DecidableEq, Repr

/-- Why an instruction is given no meaning. -/
inductive Refusal where
  /-- Raised only by an arm of `exec` whose instruction has no meaning yet; no arm is in this form. Safe. -/
  | notModelled (mnemonic : String)
deriving DecidableEq, Repr

/-- One block, and the host's side of its port. The first three fields are the whole of the spec's state (R17). -/
structure State where
  /-- V, the lifecycle bit (R18). -/
  v : Lifecycle
  /-- LEN, the buffer's length in bytes (R19). -/
  len : BitVec 48
  /-- BUF, the buffer's bytes (R21). -/
  buf : Memory
  /-- LMAX, the open parameter of R8: an argument of the machine, which no step changes (log entry 1). -/
  lmax : Nat
  /-- The model's own: the bytes the host sends on the port, next byte first (log entry 3). -/
  inbox : List Byte
  /-- The model's own: the response words the host has received, oldest first (log entry 3). -/
  outbox : List Word
  /-- The model's own: what the reset input does at the coming steps, next step first; no entry means no reset (log entry 4). -/
  resetLine : List ResetEvent
  /-- The model's own: how many free values have been drawn (log entry 5). -/
  draws : Nat
deriving DecidableEq, Repr

/-- A block of capacity `lmax` right after reset, the port quiet: V = 0 (R26, R119). LEN and BUF are unspecified after reset
and unobservable; the model holds 0 and no listed byte there, the example R27 gives (DESIGN CHOICE, log entry 2). -/
def State.resetOf (lmax : Nat) : State where
  v := .empty
  len := 0
  buf := []
  lmax := lmax
  inbox := []
  outbox := []
  resetLine := []
  draws := 0

/-- The machine right after reset (R26), with the model's LMAX (DESIGN CHOICE, log entry 1). -/
def State.reset : State := State.resetOf Config.resetLmax

end Sys2Proof.Machine
end

