-- ==== Sys2Proof/Machine/Flags.lean ====
section
/-! DEFINITION. The block has no flags and no condition codes (`10_state.md` R23). What it reports about a command is the
STATUS of that command's own response, which is no state: this file holds the STATUS codes and the response word
(`30_encoding.md` R58 to R60). -/

namespace Sys2Proof.Machine

/-- The code of a STATUS (R59). -/
def Status.code : Status → BitVec 3
  | .ok => 0
  | .outOfRange => 1
  | .invalidWidth => 2
  | .notConstructed => 3
  | .alreadyConstructed => 4
  | .capacityExceeded => 5
  | .illegalCommand => 6

/-- The STATUS a code names; `none` for the reserved code 7 (R59). -/
def Status.ofCode (c : BitVec 3) : Option Status :=
  [Status.ok, .outOfRange, .invalidWidth, .notConstructed, .alreadyConstructed, .capacityExceeded,
    .illegalCommand].find? fun st => decide (st.code = c)

/-- The response word: STATUS in bits 63:61, zero in bits 60:48, DATA in bits 47:0 (R58). -/
def responseWord (st : Status) (data : BitVec 48) : Word := st.code ++ 0#13 ++ data

/-- STATUS of a response word, bits 63:61 (R58). -/
def statusField (rsp : Word) : BitVec 3 := rsp.extractLsb 63 61

/-- The reserved field of a response word, bits 60:48 (R58). -/
def responseReserved (rsp : Word) : BitVec 13 := rsp.extractLsb 60 48

/-- DATA of a response word, bits 47:0 (R58). -/
def dataField (rsp : Word) : BitVec 48 := rsp.extractLsb 47 0

/-- `DATA[31:0]`, the 32-bit result of a READ answered OK (R60). -/
def resultField (rsp : Word) : BitVec 32 := rsp.extractLsb 31 0

/-- A response word's bytes on a byte transport, most significant byte first (`20_memory.md` R36). -/
def responseBytes (rsp : Word) : List Byte := wordBytes rsp

end Sys2Proof.Machine
end

