-- ==== Sys2Proof/Machine/Ops.lean ====
section
/-! DEFINITION. The named operations over the state: buffer bytes and their canonical form, the primitives MemRead and MemWrite,
`respond` and `raise` of `00_scope.md` R12, and one update for each field of State. `raise` is this hardware's whole error
mechanism: there are no traps to take and none to return from (`60_exceptions.md` R102, R111). -/

namespace Sys2Proof.Machine

/-! ## Buffer bytes -/

/-- What a byte of BUF that nothing has written reads as. The spec leaves it unspecified and unobservable (`10_state.md` R26,
R27); DESIGN CHOICE (log entry 2). -/
def Memory.unlisted : Byte := 0

/-- The byte at an address. -/
def Memory.readByte : Memory → Nat → Byte
  | [], _ => Memory.unlisted
  | (k, b) :: m, a => if k = a then b else Memory.readByte m a

/-- The memory with byte `b` at address `a`, in canonical form. -/
def Memory.writeByte : Memory → Nat → Byte → Memory
  | [], a, b => if b = Memory.unlisted then [] else [(a, b)]
  | (k, c) :: m, a, b =>
    if a < k then
      if b = Memory.unlisted then (k, c) :: m else (a, b) :: (k, c) :: m
    else if a = k then
      if b = Memory.unlisted then m else (a, b) :: m
    else (k, c) :: Memory.writeByte m a b

/-- The canonical form: addresses strictly rising, no entry equal to what an unlisted address reads as. -/
abbrev Memory.WF (m : Memory) : Prop :=
  m.Pairwise (fun x y => x.1 < y.1) ∧ ∀ c ∈ m, c.2 ≠ Memory.unlisted

/-- `n` bytes from address `a`, concatenated with the first most significant (R12; `20_memory.md` R33). -/
def Memory.readBig (m : Memory) (a : Nat) : Nat → Nat
  | 0 => 0
  | n + 1 => Memory.readBig m a n * 256 + (m.readByte (a + n)).toNat

/-! ## One update for each field -/

/-- `V <- x`. -/
def State.setV (s : State) (x : Lifecycle) : State := { s with v := x }

/-- `LEN <- x`. -/
def State.setLen (s : State) (x : BitVec 48) : State := { s with len := x }

/-- BUF as a whole. -/
def State.setBuf (s : State) (m : Memory) : State := { s with buf := m }

/-- The port's pending bytes. -/
def State.setInbox (s : State) (bytes : List Byte) : State := { s with inbox := bytes }

/-- One more response to the host. -/
def State.push (s : State) (rsp : Word) : State := { s with outbox := s.outbox ++ [rsp] }

/-- The coming events of the reset input. -/
def State.setResetLine (s : State) (line : List ResetEvent) : State := { s with resetLine := line }

/-- One free value drawn. -/
def State.draw (s : State) : State := { s with draws := s.draws + 1 }

/-! ## The primitives of R12 -/

/-- `MemRead(a, n)`: "Defined only when `a + n <= LEN`"; `none` elsewhere. -/
def memRead (s : State) (a n : Nat) : Option Nat :=
  if a + n ≤ s.len.toNat then some (s.buf.readBig a n) else none

/-- `MemWrite(a, 1, v)`; `none` outside BUF[0..LMAX-1] (R17). -/
def memWrite (s : State) (a : Nat) (b : Byte) : Option State :=
  if a < s.lmax then some (s.setBuf (s.buf.writeByte a b)) else none

/-- `for k in 0 .. : MemWrite(a + k, 1, bytes[k])`, in order (`41_lifecycle.md` R82). -/
def memWriteAll (s : State) (a : Nat) : List Byte → Option State
  | [] => some s
  | b :: bytes =>
    match memWrite s a b with
    | none => none
    | some t => memWriteAll t (a + 1) bytes

/-- `respond(OK, d)`: end the command with STATUS = OK and DATA = d. -/
def respondOk (d : BitVec 48) (s : State) : Host.Outcome State Fault Refusal :=
  .next (s.push (responseWord .ok d))

/-- `raise <STATUS>`: end the command with that STATUS and DATA = 0; "it writes none of V, LEN or BUF" and records nothing
(`60_exceptions.md` R106). -/
def raise (st : Status) (s : State) : Host.Outcome State Fault Refusal :=
  .next (s.push (responseWord st 0))

end Sys2Proof.Machine
end

