-- ==== Sys2Proof/Machine/Lifecycle.lean ====
section
/-! DEFINITION. The lifecycle family, CONSTRUCT and DESTROY, and the answer to an illegal word (`41_lifecycle.md` R81 to R90). -/

namespace Sys2Proof.Machine

/-- CONSTRUCT (R82): the lifecycle check, the capacity check (R83), then the payload's bytes into BUF from byte 0, LEN, V and
the response. On an error V, LEN and BUF keep their values (R84); the payload has left the port already (R56). -/
def execConstruct (len : Nat) (payload : List Byte) (s : State) : Host.Outcome State Fault Refusal :=
  if s.v = .loaded then raise .alreadyConstructed s
  else if len > s.lmax then raise .capacityExceeded s
  else
    match memWriteAll s 0 payload with
    | none => .fault .bufferAccess
    | some t => respondOk 0 ((t.setLen (BitVec.ofNat 48 len)).setV .loaded)

/-- DESTROY (R86): V becomes EMPTY; LEN and BUF hold their old values. -/
def execDestroy (s : State) : Host.Outcome State Fault Refusal :=
  if s.v = .empty then raise .notConstructed s
  else respondOk 0 (s.setV .empty)

/-- An illegal word (R89): ILLEGAL_COMMAND, no state changed, whatever V is. -/
def execIllegal (s : State) : Host.Outcome State Fault Refusal := raise .illegalCommand s

end Sys2Proof.Machine
end

