-- ==== Sys2Proof/Machine/Operands.lean ====
section
/-! DEFINITION. What a READ computes from its operands (`40_read.md` R68, R72, R73), and the buffer's bits (`00_scope.md` R9).
All of it is exact arithmetic on naturals (R11). -/

namespace Sys2Proof.Machine

/-- TOTAL = 8 * LEN, the total bit length, derived and not stored (`10_state.md` R20). -/
def total (s : State) : Nat := 8 * s.len.toNat

/-- `ceil(a/b)` for naturals (R11). -/
def ceilDiv (a b : Nat) : Nat := (a + b - 1) / b

/-- b, the starting byte (R72). -/
def startByte (pos : Nat) : Nat := pos / 8

/-- o, the starting bit within the byte (R72). -/
def startBit (pos : Nat) : Nat := pos % 8

/-- n, the bytes touched (R72). -/
def spanBytes (pos width : Nat) : Nat := ceilDiv (startBit pos + width) 8

/-- s, the trailing bits to discard (R73). -/
def trailingBits (pos width : Nat) : Nat := 8 * spanBytes pos width - startBit pos - width

/-- `(acc >> s) & (2^WIDTH - 1)` (R73). -/
def extractField (acc pos width : Nat) : Nat := (acc >>> trailingBits pos width) &&& (2 ^ width - 1)

/-- `zext_48(v)`, for v below 2^48 (R11, R60). -/
def zext48 (v : Nat) : BitVec 48 := BitVec.ofNat 48 v

/-- `BIT(i)`: bit offset i lies in byte `i div 8` at `i mod 8`, counted from the most significant bit (R9, R32). -/
def bufferBit (s : State) (i : Nat) : Nat := ((s.buf.readByte (i / 8)).toNat >>> (7 - i % 8)) &&& 1

end Sys2Proof.Machine
end

