-- ==== Sys2Proof/Machine/Read.lean ====
section
/-! DEFINITION. READ, the extraction family (`40_read.md` R66 to R80). -/

namespace Sys2Proof.Machine

/-- READ (R68): the state check (R69), the width check (R70), the range check (R71), then accumulate, shift and mask (R72,
R73) and the response (R74). It writes no state on any path (R76). -/
def execRead (pos width : Nat) (s : State) : Host.Outcome State Fault Refusal :=
  if s.v = .empty then raise .notConstructed s
  else if width = 0 ∨ width > Config.maxWidth then raise .invalidWidth s
  else if pos + width > total s then raise .outOfRange s
  else
    match memRead s (startByte pos) (spanBytes pos width) with
    | none => .fault .bufferAccess
    | some acc => respondOk (zext48 (extractField acc pos width)) s

end Sys2Proof.Machine
end

