-- ==== Sys2Proof/Machine/Dispatch.lean ====
section
/-! DEFINITION. One arm for each constructor of Instr, each a direct call of that instruction's meaning. -/

namespace Sys2Proof.Machine

/-- What a command does to the state it finds. -/
def exec (i : Instr) (s : State) : Host.Outcome State Fault Refusal :=
  match i with
  | .read pos width => Sys2Proof.Machine.execRead pos width s
  | .construct len payload => Sys2Proof.Machine.execConstruct len payload s
  | .destroy => Sys2Proof.Machine.execDestroy s

end Sys2Proof.Machine
end

