-- ==== Sys2Proof/Machine/Port.lean ====
section
/-! DEFINITION. The command port and the reset input: serving the next transaction (`30_encoding.md` R49, R61), and reset
(`70_reset_and_hazards.md` R119, R120). -/

namespace Sys2Proof.Machine

/-- Carry out one transaction: a command by its meaning, an illegal word by ILLEGAL_COMMAND (R61, R89). -/
def runTransaction (t : Transaction) (s : State) : Host.Outcome State Fault Refusal :=
  match t with
  | .command i => exec i s
  | .illegal _ => execIllegal s

/-- Take the next whole transaction off the port and carry it out; the payload leaves the port whatever the outcome (R56).
With no whole transaction there, the host has no move (R125) and the block is stuck. -/
def serve (s : State) : Host.Outcome State Fault Refusal :=
  match decode s.inbox with
  | .idle => .fault .portIdle
  | .shortWord => .fault .shortCommandWord
  | .shortPayload => .fault .shortPayload
  | .ready t rest => runTransaction t (s.setInbox rest)

/-- Reset (R119): V becomes EMPTY. LEN and BUF are unspecified then and take the values `State.reset` holds (DESIGN CHOICE,
log entry 2). -/
def applyReset (s : State) : State := ((s.setV .empty).setLen 0).setBuf []

/-- Reset during a transaction (R120): the transaction at the head of the port either completes with its response before the
reset or has no effect and no response; a free value says which (log entry 5). A transaction not yet whole cannot complete:
its bytes are dropped (DEDUCED, log entry 6). -/
def resetRace (s : State) : Host.Outcome State Fault Refusal :=
  match decode s.inbox with
  | .ready t rest =>
    if Config.resetRaceCompletes s.draws then
      match runTransaction t (s.draw.setInbox rest) with
      | .next u => .next (applyReset u)
      | .fault r => .fault r
      | .refused r => .refused r
    else .next (applyReset (s.draw.setInbox rest))
  | _ => .next (applyReset (s.setInbox []))

/-- One step under one event of the reset input. -/
def stepUnder (e : ResetEvent) (s : State) : Host.Outcome State Fault Refusal :=
  match e with
  | .quiet => serve s
  | .betweenTransactions => .next (applyReset s)
  | .duringTransaction => resetRace s

/-- Put the transaction of a table word at the head of the port, and quieten the reset input, so that the next step serves
exactly it. -/
def placeTableWord (s : State) (nbits w : Nat) : State :=
  (s.setInbox (tableBytes nbits w ++ s.inbox)).setResetLine []

end Sys2Proof.Machine
end

