-- ==== Sys2Proof/Machine/Step.lean ====
section
/-! DEFINITION. One step of the block: one event of the reset input, or one transaction of the port (`20_memory.md` R40, R44). -/

namespace Sys2Proof.Machine

/-- One step. Where the reset input says nothing, the block serves the next transaction. -/
def step (s : State) : Host.Outcome State Fault Refusal :=
  match s.resetLine with
  | [] => stepUnder .quiet s
  | e :: line => stepUnder e (s.setResetLine line)

/-- `s` with the transaction of a table word at the head of its port (log entry 3). -/
def State.withFetchWord (s : State) (nbits w : Nat) : State := placeTableWord s nbits w

end Sys2Proof.Machine
end

