-- ==== Sys2Proof/Machine/Scan.lean ====
section
/-! DEFINITION. SCAN, the host-side scan pass (`42_scan.md` R91 to R101). It runs on the host, not in the block: it reads the
block through READ commands only, and its two values are the host's, so they stand outside State (R91, R93). -/

namespace Sys2Proof.Machine

/-- What the host keeps for one pass (R93). Each concurrent pass owns its own. -/
structure HostPass where
  /-- The read position, a natural. -/
  pos : Nat
  /-- The checksum so far, a 32-bit word. -/
  sum : BitVec 32
deriving DecidableEq, Repr

/-- A pass before its first READ (R94). -/
def HostPass.start : HostPass := { pos := 0, sum := 0 }

/-- The pass after an answered READ of width `w`: the value added modulo 2^32 (R96), the position advanced (R95). -/
def HostPass.advance (p : HostPass) (w : Nat) (rsp : Word) : HostPass :=
  { pos := p.pos + w, sum := p.sum + resultField rsp }

/-- One iteration of R94's loop: issue READ pos, w; take the response to that command; abort the pass unless it is OK (R98). -/
def scanIteration (w : Nat) (p : HostPass) (s : State) : Host.Outcome (State × HostPass) Fault Refusal :=
  match exec (.read p.pos w) s with
  | .next t =>
    match t.outbox[s.outbox.length]? with
    | none => .fault (.scanAborted none)
    | some rsp =>
      if statusField rsp = Status.ok.code then .next (t, p.advance w rsp)
      else .fault (.scanAborted (Status.ofCode (statusField rsp)))
  | .fault r => .fault r
  | .refused r => .refused r

/-- R94's loop with at most `fuel` iterations: the pre-check before every READ (R95). -/
def scanLoop : Nat → Nat → Nat → HostPass → State → Host.Outcome (State × HostPass) Fault Refusal
  | 0, _, _, p, s => .next (s, p)
  | fuel + 1, w, bits, p, s =>
    if p.pos + w ≤ bits then
      match scanIteration w p s with
      | .next (t, q) => scanLoop fuel w bits q t
      | .fault r => .fault r
      | .refused r => .refused r
    else .next (s, p)

/-- `SCAN w` over a buffer whose total bit length the host knows to be `bits` (R92, R94). A pass makes `bits div w`
iterations (R97), so one more is enough for the pre-check to end it; with `w = 0` the first READ ends it (R70). -/
def scan (w bits : Nat) (s : State) : Host.Outcome (State × HostPass) Fault Refusal :=
  scanLoop (bits / w + 1) w bits HostPass.start s

/-- The pass as a command sequence: READ 0, w; READ w, w; ...; READ (N-1)w, w with N = bits div w (R94, R97). -/
def scanReads (w bits : Nat) : List Instr := (List.range (bits / w)).map fun k => .read (k * w) w

/-- The checksum of a pass's responses: the sum of `DATA[31:0]` modulo 2^32 (R96). -/
def checksum (rsps : List Word) : BitVec 32 := rsps.foldl (fun sum rsp => sum + resultField rsp) 0

/-! ## Several passes at once -/

/-- One host thread's pass over its own bit range, up to bit `stop` (`20_memory.md` R45, `70_reset_and_hazards.md` R126): "own an
independent position counter and operate over disjoint bit ranges". -/
structure ScanThread where
  width : Nat
  stop : Nat
  pass : HostPass
deriving DecidableEq, Repr

/-- One turn of a thread: an iteration of its pass, or nothing where its pre-check fails (R95). -/
def turn (th : ScanThread) (s : State) : Host.Outcome (State × ScanThread) Fault Refusal :=
  if th.pass.pos + th.width ≤ th.stop then
    match scanIteration th.width th.pass s with
    | .next (t, p) => .next (t, { th with pass := p })
    | .fault r => .fault r
    | .refused r => .refused r
  else .next (s, th)

/-- A thread alone for some turns. -/
def turns : Nat → ScanThread → State → Host.Outcome (State × ScanThread) Fault Refusal
  | 0, th, s => .next (s, th)
  | n + 1, th, s =>
    match turn th s with
    | .next (t, th') => turns n th' t
    | .fault r => .fault r
    | .refused r => .refused r

/-- Threads sharing the block, in the order the host side chooses: the schedule names the thread of each turn (R45). A turn of a
thread that does not exist is nothing. -/
def interleave : List Nat → List ScanThread → State → Host.Outcome (State × List ScanThread) Fault Refusal
  | [], ths, s => .next (s, ths)
  | k :: schedule, ths, s =>
    match ths[k]? with
    | none => interleave schedule ths s
    | some th =>
      match turn th s with
      | .next (t, th') => interleave schedule (ths.set k th') t
      | .fault r => .fault r
      | .refused r => .refused r

end Sys2Proof.Machine
end

