-- ==== Sys2Proof/Machine/Assembler.lean ====
section
/-! DEFINITION. The assembly syntax of `30_encoding.md` R63 to R65: text to lines, and lines to the bytes the host sends on the
port. The pseudo-instruction SCAN expands into READs (R65, `42_scan.md` R94). -/

namespace Sys2Proof.Machine

/-! ## Lines -/

/-- One line of assembly (R63, R65), its numbers as written. -/
inductive AsmLine where
  | read (pos width : Nat)
  | construct (len : Nat) (bytes : List Nat)
  | destroy
  /-- `.cmd <word>`: a raw command word. -/
  | cmd (word : Nat)
  /-- `.bytes [...]`: the payload of the `.cmd` line before it. -/
  | bytes (bytes : List Nat)
  /-- `SCAN <width>`, the pseudo-instruction. -/
  | scan (width : Nat)
deriving DecidableEq, Repr

/-- A byte list as bytes; `none` if it has "a byte above 255" (R63). -/
def asmBytes (ns : List Nat) : Option (List Byte) :=
  if ns.all (fun n => decide (n < 256)) then some (ns.map (BitVec.ofNat 8)) else none

/-- A command's bytes, unless R63 has the assembler refuse it. -/
def asmCommand (i : Instr) : Option (List Byte) := if i.wellFormed then some (encode i) else none

/-- The length of a block's buffer while LOADED, `none` while EMPTY: what a host must know to scan it (R92). -/
def loadedLength (s : State) : Option Nat := if s.v = .loaded then some s.len.toNat else none

/-- The buffer length the host knows after a transaction, for SCAN (R92: "the host knows because it issued the CONSTRUCT"). It
follows the lifecycle of R88: a CONSTRUCT while EMPTY gives its length if that is at most LMAX, and loads nothing if it is more
(R83); a CONSTRUCT while LOADED and an illegal word change nothing; DESTROY leaves no length (DESIGN CHOICE, log entry 7). -/
def asmKnown (lmax : Nat) (known : Option Nat) : Transaction → Option Nat
  | .command (.construct len _) => known.or (if len ≤ lmax then some len else none)
  | .command .destroy => none
  | .command (.read _ _) => known
  | .illegal _ => known

/-- The buffer length the host knows after a line's transaction. A line of payload bytes is no transaction, and a payload's bytes
do not bear on the length. -/
def asmKnownLine (lmax : Nat) (known : Option Nat) : AsmLine → Option Nat
  | .construct len _ => asmKnown lmax known (.command (.construct len []))
  | .destroy => asmKnown lmax known (.command .destroy)
  | .cmd word => asmKnown lmax known (decodeWord (BitVec.ofNat 64 word) [])
  | .read _ _ => known
  | .bytes _ => known
  | .scan _ => known

/-- The buffer length the host knows after some lines. -/
def asmKnownAfter (lmax : Nat) (known : Option Nat) (lines : List AsmLine) : Option Nat :=
  lines.foldl (asmKnownLine lmax) known

/-- A `.cmd` word and the payload its `.bytes` line gives: any 64-bit word, and exactly the payload its OP and LEN call for
(R63). -/
def asmRaw (word : Nat) (payload : List Byte) : Option (List Byte) :=
  if word < 2 ^ 64 ∧ payload.length = payloadLength (BitVec.ofNat 64 word)
  then some (wordBytes (BitVec.ofNat 64 word) ++ payload) else none

/-- The READs of `SCAN w` over a buffer of `len` bytes, under R92's precondition. -/
def asmScan (known : Option Nat) (w : Nat) : Option (List Byte) :=
  match known with
  | some len =>
    if 1 ≤ w ∧ w ≤ Config.maxWidth then some ((scanReads w (8 * len)).flatMap encode) else none
  | none => none

/-- Put a line's bytes before those of the lines after it. -/
def asmJoin (first rest : Option (List Byte)) : Option (List Byte) :=
  match first, rest with
  | some bs, some cs => some (bs ++ cs)
  | _, _ => none

/-- The bytes of a program for a block of capacity `lmax`, or `none` where the assembler refuses a line (R63, R64); `known` is the
buffer length the host knows before it. A `.cmd` word with OP = `01` must be followed by a `.bytes` line, and a `.bytes` line
stands nowhere else. -/
def assembleFrom (lmax : Nat) : Option Nat → List AsmLine → Option (List Byte)
  | _, [] => some []
  | known, .read pos width :: lines =>
    asmJoin (asmCommand (.read pos width)) (assembleFrom lmax (asmKnownLine lmax known (.read pos width)) lines)
  | known, .construct len ns :: lines =>
    match asmBytes ns with
    | none => none
    | some bs =>
      asmJoin (asmCommand (.construct len bs)) (assembleFrom lmax (asmKnownLine lmax known (.construct len ns)) lines)
  | known, .destroy :: lines =>
    asmJoin (asmCommand .destroy) (assembleFrom lmax (asmKnownLine lmax known .destroy) lines)
  | known, .cmd word :: .bytes ns :: lines =>
    if opField (BitVec.ofNat 64 word) = 0b01#2 then
      match asmBytes ns with
      | none => none
      | some bs => asmJoin (asmRaw word bs) (assembleFrom lmax (asmKnownLine lmax known (.cmd word)) lines)
    else none
  | known, .cmd word :: lines =>
    if opField (BitVec.ofNat 64 word) = 0b01#2 then none
    else asmJoin (asmRaw word []) (assembleFrom lmax (asmKnownLine lmax known (.cmd word)) lines)
  | _, .bytes _ :: _ => none
  | known, .scan w :: lines =>
    asmJoin (asmScan known w) (assembleFrom lmax (asmKnownLine lmax known (.scan w)) lines)

/-- The bytes of a whole program for an EMPTY block of capacity `lmax`: the host knows no buffer yet. -/
def assemble (lmax : Nat) (lines : List AsmLine) : Option (List Byte) := assembleFrom lmax none lines

/-! ## Text -/

/-- A token of one line. -/
inductive AsmToken where
  | word (cs : List Char)
  | comma
  | openList
  | closeList
deriving DecidableEq, Repr

/-- The value of a digit in any base up to 16. -/
def digitValue (c : Char) : Option Nat :=
  let n := c.toNat
  if 48 ≤ n ∧ n ≤ 57 then some (n - 48)
  else if 97 ≤ n ∧ n ≤ 102 then some (n - 87)
  else if 65 ≤ n ∧ n ≤ 70 then some (n - 55)
  else none

/-- Digits of a base, most significant first, onto what was read before them. -/
def readDigits (base : Nat) : Nat → List Char → Option Nat
  | acc, [] => some acc
  | acc, c :: cs =>
    match digitValue c with
    | none => none
    | some d => if d < base then readDigits base (acc * base + d) cs else none

/-- "Numbers are decimal or `0x` hexadecimal or `0b` binary" (R63). -/
def parseNumber (cs : List Char) : Option Nat :=
  match cs with
  | [] => none
  | '0' :: 'x' :: c :: ds => readDigits 16 0 (c :: ds)
  | '0' :: 'b' :: c :: ds => readDigits 2 0 (c :: ds)
  | c :: ds => readDigits 10 0 (c :: ds)

/-- The word read so far, if there is one, before the tokens after it. -/
def endWord (word : List Char) (tokens : List AsmToken) : List AsmToken :=
  if word.isEmpty then tokens else .word word.reverse :: tokens

/-- A line's tokens; `word` holds the word being read, last character first. A `;` starts a comment (R63). -/
def tokenise : List Char → List Char → List AsmToken
  | word, [] => endWord word []
  | word, c :: cs =>
    if c = ';' then endWord word []
    else if c = ' ' ∨ c = '\t' ∨ c = '\r' then endWord word (tokenise [] cs)
    else if c = ',' then endWord word (.comma :: tokenise [] cs)
    else if c = '[' then endWord word (.openList :: tokenise [] cs)
    else if c = ']' then endWord word (.closeList :: tokenise [] cs)
    else tokenise (c :: word) cs

/-- The numbers of a list after its opening bracket, up to its closing bracket at the end of the line. -/
def parseItems : List AsmToken → Option (List Nat)
  | [.word cs, .closeList] => (parseNumber cs).map fun n => [n]
  | .word cs :: .comma :: tokens =>
    match parseNumber cs, parseItems tokens with
    | some n, some ns => some (n :: ns)
    | _, _ => none
  | _ => none

/-- A bracketed list of numbers, the empty list among them. -/
def parseList : List AsmToken → Option (List Nat)
  | [.openList, .closeList] => some []
  | .openList :: tokens => parseItems tokens
  | _ => none

/-- One command of one line's tokens; `none` where the line is none (R63, R65). -/
def parseLine (tokens : List AsmToken) : Option AsmLine :=
  match tokens with
  | .word m :: args =>
    if m = ['R', 'E', 'A', 'D'] then
      match args with
      | [.word p, .comma, .word w] =>
        match parseNumber p, parseNumber w with
        | some pos, some width => some (.read pos width)
        | _, _ => none
      | _ => none
    else if m = ['C', 'O', 'N', 'S', 'T', 'R', 'U', 'C', 'T'] then
      match args with
      | .word n :: .comma :: list =>
        match parseNumber n, parseList list with
        | some len, some bs => some (.construct len bs)
        | _, _ => none
      | _ => none
    else if m = ['D', 'E', 'S', 'T', 'R', 'O', 'Y'] then if args.isEmpty then some .destroy else none
    else if m = ['.', 'c', 'm', 'd'] then
      match args with
      | [.word n] => (parseNumber n).map .cmd
      | _ => none
    else if m = ['.', 'b', 'y', 't', 'e', 's'] then (parseList args).map .bytes
    else if m = ['S', 'C', 'A', 'N'] then
      match args with
      | [.word n] => (parseNumber n).map .scan
      | _ => none
    else none
  | _ => none

/-- A text's lines: the first line, and the lines after it. -/
def textLines : List Char → List Char × List (List Char)
  | [] => ([], [])
  | c :: cs =>
    if c = '\n' then ([], (textLines cs).1 :: (textLines cs).2)
    else (c :: (textLines cs).1, (textLines cs).2)

/-- The commands of a program's lines, "one command per line" (R63); a line with no token holds none. -/
def parseLines : List (List Char) → Option (List AsmLine)
  | [] => some []
  | line :: lines =>
    match tokenise [] line with
    | [] => parseLines lines
    | t :: ts =>
      match parseLine (t :: ts), parseLines lines with
      | some l, some ls => some (l :: ls)
      | _, _ => none

/-- A program's text to the bytes the host sends to an EMPTY block of capacity `lmax`. -/
def assembleText (lmax : Nat) (text : List Char) : Option (List Byte) :=
  match parseLines ((textLines text).1 :: (textLines text).2) with
  | some lines => assemble lmax lines
  | none => none

end Sys2Proof.Machine
end

