-- ==== Sys2Proof/Safety.lean ====
section
/-! DEFINITION. What claims are stated in: the invariant of the block, what a host can see of a run, which states look alike
to it, and which responses and runs are the ones a claim may want as a premise (`93_implementation_defined.md` rows 2 and 13). -/

namespace Sys2Proof.Machine

/-! ## Responses -/

/-- A response word as `30_encoding.md` R58 to R60 allow it: bits 60:48 read as 0, STATUS 7 is never produced, DATA is 0 with
every STATUS but OK, and `DATA[47:32]` is 0 with OK. -/
abbrev LegalResponse (rsp : Word) : Prop :=
  responseReserved rsp = 0 ∧ statusField rsp ≠ 7 ∧ (statusField rsp ≠ 0 → dataField rsp = 0) ∧
    (dataField rsp).extractLsb 47 32 = 0

/-- Every response so far is OK. -/
abbrev AllOk (s : State) : Prop := ∀ rsp ∈ s.outbox, statusField rsp = Status.ok.code

/-- No response so far is INVALID_WIDTH or ILLEGAL_COMMAND: the premise the spec recommends for claims about a run, since an
implementation of the source may halt on the first (rows 2 and 13). -/
abbrev NoCallerDefect (s : State) : Prop :=
  ∀ rsp ∈ s.outbox, statusField rsp ≠ Status.invalidWidth.code ∧ statusField rsp ≠ Status.illegalCommand.code

/-! ## The invariant -/

/-- What every step keeps: the capacity is a legal LMAX (`00_scope.md` R8), BUF is in canonical form and lies in
BUF[0..LMAX-1] (`10_state.md` R17), a loaded buffer is no longer than LMAX (R19, R28), and every response is legal. -/
abbrev State.Inv (s : State) : Prop :=
  (Config.lmaxLeast ≤ s.lmax ∧ s.lmax ≤ Config.lmaxGreatest) ∧ s.buf.WF ∧ (∀ c ∈ s.buf, c.1 < s.lmax) ∧
    (s.v = .loaded → s.len.toNat ≤ s.lmax) ∧ ∀ rsp ∈ s.outbox, LegalResponse rsp

/-! ## Runs -/

/-- `s` and the states of the next `k` steps are all LOADED. -/
def loadedThroughout : Nat → State → Bool
  | 0, s => decide (s.v = .loaded)
  | k + 1, s =>
    decide (s.v = .loaded) &&
      match step s with
      | .next t => loadedThroughout k t
      | .fault _ => false
      | .refused _ => false

/-- What the host sees of a state: V through the status codes, the bytes it has still to send, and the responses. -/
structure View where
  v : Lifecycle
  inbox : List Byte
  outbox : List Word
deriving DecidableEq, Repr

/-- What the host sees of the end of a run. -/
def visible : Host.Outcome State Fault Refusal → Host.Outcome View Fault Refusal
  | .next s => .next { v := s.v, inbox := s.inbox, outbox := s.outbox }
  | .fault r => .fault r
  | .refused r => .refused r

/-- The two states differ at most where no command can look: in LEN and BUF while EMPTY (`10_state.md` R27), and in the bytes
from LEN up while LOADED (R21). -/
def LookAlike (s t : State) : Prop :=
  s.v = t.v ∧ s.lmax = t.lmax ∧ s.inbox = t.inbox ∧ s.outbox = t.outbox ∧ s.resetLine = t.resetLine ∧ s.draws = t.draws ∧
    (s.v = .loaded → s.len = t.len ∧ ∀ a < s.len.toNat, s.buf.readByte a = t.buf.readByte a)

end Sys2Proof.Machine
end

