-- ==== Sys2Proof/Certificates/Slice0/Obligations.lean ====
section
/-! DEFINITION. The statements for the provers. Each docstring names the rule of spec/ the statement formalises; a response word
is written as the literal of `95_test_vectors.md` where the spec gives one. -/

open Sys2Proof Sys2Proof.Machine

/-! ## The machine as a whole -/

/-- `State.Inv` holds after reset, for every capacity R8 allows; the last clause is about the capacity the model's own
`State.reset` has (the model's choice, log entry 1). -/
def Obligations.ResetMeetsInvariant : Prop :=
  (∀ lmax, 1 ≤ lmax → lmax ≤ 2 ^ 45 → (State.resetOf lmax).Inv ∧ (State.resetOf lmax).v = .empty) ∧ State.reset.Inv

/-- Every step keeps the invariant: LMAX stays legal, BUF stays in canonical form and below LMAX, a loaded buffer is no longer
than LMAX (R19, R28), and every response is as R58 to R60 allow it. -/
def Obligations.StepKeepsInvariant : Prop :=
  ∀ s t : State, s.Inv → step s = .next t → t.Inv

/-- R27: "While V = EMPTY, LEN and BUF are unobservable ... a model may hold any value there ... without changing any observable
result". Two states that differ at most in LEN and BUF while EMPTY, or in the bytes from LEN up while LOADED (R21), answer every
run alike: the same end, the same V, the same bytes left on the port, the same responses. -/
def Obligations.HiddenBytesAreUnobservable : Prop :=
  ∀ (k : Nat) (s t : State), s.Inv → t.Inv → LookAlike s t → visible (core.run k s) = visible (core.run k t)

/-- R28: "`V = 1` implies `LEN <= LMAX`, and `BUF[0..LEN-1]` equals the payload of the CONSTRUCT that last set V to 1": for every
run that starts with a CONSTRUCT that loads the buffer and stays LOADED. -/
def Obligations.LoadedBufferIsThePayload : Prop :=
  ∀ (s u t : State) (L : Nat) (payload : List Byte) (k : Nat),
    s.Inv → (Instr.construct L payload).WF → s.v = .empty → exec (.construct L payload) s = .next u → u.v = .loaded →
    loadedThroughout k u → core.run k u = .next t →
    t.v = .loaded ∧ t.len.toNat ≤ t.lmax ∧ t.len.toNat = payload.length ∧
      ∀ i (h : i < payload.length), t.buf.readByte i = payload[i]

/-- R18's last sentences: V goes to 1 only by a successful CONSTRUCT, and to 0 only by a successful DESTROY or by reset. -/
def Obligations.OnlyLifecycleEventsChangeV : Prop :=
  ∀ s t : State, step s = .next t →
    (s.v = .empty → t.v = .loaded → ∃ L payload rest,
      decode s.inbox = .ready (.command (.construct L payload)) rest ∧ L ≤ s.lmax ∧
        t.outbox = s.outbox ++ [0x0000000000000000#64]) ∧
    (s.v = .loaded → t.v = .empty →
      (∃ rest, decode s.inbox = .ready (.command .destroy) rest ∧ t.outbox = s.outbox ++ [0x0000000000000000#64]) ∨
      ∃ e line, s.resetLine = e :: line ∧ e ≠ .quiet)

/-- R19 and R21: while V stays LOADED, no step changes LEN or BUF; and no step changes LMAX (R8: a parameter). -/
def Obligations.LoadedStepsKeepBuffer : Prop :=
  ∀ s t : State, step s = .next t → t.lmax = s.lmax ∧ (s.v = .loaded → t.v = .loaded → t.len = s.len ∧ t.buf = s.buf)

/-- R129: "Every accepted command completes with exactly one response", and R57: the length of a transaction comes "from OP alone:
8 bytes for OP = `00`, `10` and `11`; 8 + LEN bytes for OP = `01`, with LEN read from bits 47:0 even when bits 61:48 are not 0".
Whatever the 64-bit word, whatever the state: a whole transaction is answered by the next step, once, and exactly its bytes leave
the port. -/
def Obligations.EveryTransactionIsAnsweredOnce : Prop :=
  ∀ (s : State) (cmd : Word) (payload rest : List Byte),
    s.resetLine = [] → s.inbox = wordBytes cmd ++ payload ++ rest →
    payload.length = (if cmd.extractLsb 63 62 = 0b01#2 then (cmd.extractLsb 47 0).toNat else 0) →
    ∃ t r, step s = .next t ∧ t.inbox = rest ∧ t.outbox = s.outbox ++ [r]

/-- A step is what the decoded command does, at the state whose port no longer holds its bytes; an event of the reset input that
says nothing is consumed with it (log entry 4). -/
def Obligations.StepRunsTheDecodedCommand : Prop :=
  ∀ (s : State) (i : Instr) (rest : List Byte), decode s.inbox = .ready (.command i) rest →
    (s.resetLine = [] → step s = exec i { s with inbox := rest }) ∧
    (∀ line, s.resetLine = .quiet :: line → step s = exec i { s with inbox := rest, resetLine := line })

/-- Without a whole transaction on the port the step stops. The content is log entry 9's (DEDUCED, the model's own): an idle port,
with no byte pending, is no error of the host, and a word of 1 to 7 bytes is one still on its way. Only the last clause, an
OP = `01` word with fewer than LEN bytes after it, is the case R125 and row 15 of 93_implementation_defined.md name. The three
names are the model's. -/
def Obligations.UnframedPortStops : Prop :=
  ∀ s : State, s.resetLine = [] →
    (s.inbox = [] → step s = .fault .portIdle) ∧
    (0 < s.inbox.length → s.inbox.length < 8 → step s = .fault .shortCommandWord) ∧
    ∀ (cmd : Word) (bytes : List Byte), s.inbox = wordBytes cmd ++ bytes → cmd.extractLsb 63 62 = 0b01#2 →
      bytes.length < (cmd.extractLsb 47 0).toNat → step s = .fault .shortPayload

/-! ## Reset -/

/-- R26: "After reset: `V = 0` (EMPTY)". From every state, every event of the reset input, between transactions or during one,
whatever stands on the port, leaves V = 0; one between transactions leaves the port and the responses alone too. -/
def Obligations.ResetEmptiesTheBlock : Prop :=
  ∀ (s : State) (e : ResetEvent) (line : List ResetEvent), s.resetLine = e :: line → e ≠ .quiet →
    ∃ t, step s = .next t ∧ t.v = .empty ∧ t.lmax = s.lmax ∧ t.resetLine = line ∧
      (e = .betweenTransactions → t.inbox = s.inbox ∧ t.outbox = s.outbox)

/-- R120: "a transaction accepted before reset either completes with its response before reset or has no effect and no response.
After reset, the block accepts a command at once". Which of the two happens is a free value; the statement holds for either. -/
def Obligations.ResetDuringTransaction : Prop :=
  ∀ (s : State) (line : List ResetEvent) (tr : Transaction) (rest : List Byte),
    s.resetLine = .duringTransaction :: line → decode s.inbox = .ready tr rest →
    ∃ t, step s = .next t ∧ t.v = .empty ∧ t.inbox = rest ∧ t.resetLine = line ∧
      (t.outbox = s.outbox ∨
        ∃ u r, runTransaction tr { s with inbox := rest, resetLine := [] } = .next u ∧ u.outbox = s.outbox ++ [r] ∧
          t.outbox = s.outbox ++ [r]) ∧
      (line = [] → ∀ tr' rest', decode rest = .ready tr' rest' → ∃ u, step t = .next u ∧ u.inbox = rest')

/-! ## READ -/

/-- R75 and R74: for every READ that passes the checks, the value is the sum over k of BIT(POS + k) * 2^(WIDTH - 1 - k), below
2^WIDTH, and the response is OK with that value, zero-extended, as DATA. Nothing else changes. -/
def Obligations.ReadReturnsTheBitSum : Prop :=
  ∀ (s : State) (pos width : Nat),
    s.v = .loaded → 1 ≤ width → width ≤ 32 → pos + width ≤ 8 * s.len.toNat →
    ∃ d : BitVec 48, exec (.read pos width) s = .next { s with outbox := s.outbox ++ [responseWord .ok d] } ∧
      d.toNat = ∑ k ∈ Finset.range width, bufferBit s (pos + k) * 2 ^ (width - 1 - k) ∧ d.toNat < 2 ^ width

/-- R72, for every READ that passed the checks: b, o and n, the bounds `1 <= n <= 5` and `b + n <= LEN`, so that MemRead is always
defined; and five bytes exactly when `(pos mod 8) + width >= 33` (R38). -/
def Obligations.ReadTouchesOnlyTheBuffer : Prop :=
  ∀ (s : State) (pos width : Nat), 1 ≤ width → width ≤ 32 → pos + width ≤ 8 * s.len.toNat →
    startByte pos = pos / 8 ∧ startBit pos = pos % 8 ∧ spanBytes pos width = (pos % 8 + width + 7) / 8 ∧
      1 ≤ spanBytes pos width ∧ spanBytes pos width ≤ 5 ∧ startByte pos + spanBytes pos width ≤ s.len.toNat ∧
      (∃ acc, memRead s (startByte pos) (spanBytes pos width) = some acc) ∧
      (spanBytes pos width = 5 ↔ 33 ≤ pos % 8 + width)

/-- R70: "If WIDTH = 0 or WIDTH > 32, READ raises INVALID_WIDTH", whatever the position and the length. -/
def Obligations.ReadChecksTheWidth : Prop :=
  ∀ (s : State) (pos width : Nat), s.v = .loaded → width = 0 ∨ 32 < width →
    exec (.read pos width) s = .next { s with outbox := s.outbox ++ [0x4000000000000000#64] }

/-- R71: "if `POS + WIDTH > TOTAL` READ raises OUT_OF_RANGE", on exact naturals, and `POS + WIDTH = TOTAL` is in range: with a
legal width, one of the two clauses holds. -/
def Obligations.ReadChecksTheRange : Prop :=
  ∀ (s : State) (pos width : Nat), s.v = .loaded → 1 ≤ width → width ≤ 32 →
    (8 * s.len.toNat < pos + width →
      exec (.read pos width) s = .next { s with outbox := s.outbox ++ [0x2000000000000000#64] }) ∧
    (pos + width ≤ 8 * s.len.toNat →
      ∃ t r, exec (.read pos width) s = .next t ∧ t.outbox = s.outbox ++ [r] ∧ r.extractLsb 63 61 = 0#3)

/-- R76: "READ writes neither V, LEN nor BUF on any path", and two READs with the same operands, with V, LEN and BUF the same,
return the same response word, whatever else happened in between. -/
def Obligations.ReadIsPure : Prop :=
  ∀ (s : State) (pos width : Nat), ∃ r : Word, ∀ t : State, t.v = s.v → t.len = s.len → t.buf = s.buf →
    exec (.read pos width) t = .next { t with outbox := t.outbox ++ [r] }

/-- R79: an OK result is below 2^WIDTH, and depends only on POS, WIDTH and `BUF[b .. b+n-1]`: two blocks in any two states that
agree on those bytes give the same response. -/
def Obligations.ReadDependsOnItsSpanOnly : Prop :=
  ∀ (s t : State) (pos width : Nat),
    s.v = .loaded → t.v = .loaded → 1 ≤ width → width ≤ 32 → pos + width ≤ 8 * s.len.toNat → pos + width ≤ 8 * t.len.toNat →
    (∀ j < spanBytes pos width, s.buf.readByte (startByte pos + j) = t.buf.readByte (startByte pos + j)) →
    ∃ d : BitVec 48, exec (.read pos width) s = .next { s with outbox := s.outbox ++ [responseWord .ok d] } ∧
      exec (.read pos width) t = .next { t with outbox := t.outbox ++ [responseWord .ok d] } ∧
      d.toNat < 2 ^ width ∧ 2 ^ width ≤ 2 ^ 32

/-- R35: a READ of width `w1 + w2` at `p` returns `(v1 * 2^w2) + v2`, where `v1` is the READ of width `w1` at `p` and `v2` the READ
of width `w2` at `p + w1`. -/
def Obligations.WideReadIsItsPartsConcatenated : Prop :=
  ∀ (s : State) (p w1 w2 : Nat),
    s.v = .loaded → 1 ≤ w1 → 1 ≤ w2 → w1 + w2 ≤ 32 → p + w1 + w2 ≤ 8 * s.len.toNat →
    ∃ v1 v2 v : BitVec 48,
      exec (.read p w1) s = .next { s with outbox := s.outbox ++ [responseWord .ok v1] } ∧
      exec (.read (p + w1) w2) s = .next { s with outbox := s.outbox ++ [responseWord .ok v2] } ∧
      exec (.read p (w1 + w2)) s = .next { s with outbox := s.outbox ++ [responseWord .ok v] } ∧
      v.toNat = v1.toNat * 2 ^ w2 + v2.toNat

/-- R9 and R32: buffer bit offset `i` lies in byte `i div 8`, at `i mod 8` from its most significant bit, so offset 8k is bit 7 of
`BUF[k]` and offset 8k + 7 its bit 0. -/
def Obligations.OneBitReadsFollowTheBitOrder : Prop :=
  ∀ (s : State) (i : Nat), s.v = .loaded → i < 8 * s.len.toNat →
    exec (.read i 1) s =
      .next { s with
        outbox := s.outbox ++
          [responseWord .ok (if (s.buf.readByte (i / 8)).getLsbD (7 - i % 8) then 1 else 0)] }

/-- R33 and R78's last corner: a READ of n whole bytes from byte b returns those bytes, the byte of lowest index most
significant. -/
def Obligations.ByteAlignedReadIsBigEndian : Prop :=
  ∀ (s : State) (b n : Nat), s.v = .loaded → 1 ≤ n → n ≤ 4 → b + n ≤ s.len.toNat →
    ∃ d : BitVec 48, exec (.read (8 * b) (8 * n)) s = .next { s with outbox := s.outbox ++ [responseWord .ok d] } ∧
      d.toNat = ∑ j ∈ Finset.range n, (s.buf.readByte (b + j)).toNat * 256 ^ (n - 1 - j)

/-! ## CONSTRUCT, DESTROY and illegal words -/

/-- The effect of a successful CONSTRUCT (R82), and its frame: `BUF[k] = payload[k]` for every k below L, `LEN = L`, V = LOADED and
the OK response; the bytes from L up, LMAX, the port and the reset input stay. -/
def Obligations.ConstructLoadsThePayload : Prop :=
  ∀ (s : State) (L : Nat) (payload : List Byte),
    s.buf.WF → (Instr.construct L payload).WF → s.v = .empty → L ≤ s.lmax →
    ∃ (m : Memory) (n : BitVec 48),
      exec (.construct L payload) s =
        .next { s with v := .loaded, len := n, buf := m, outbox := s.outbox ++ [0x0000000000000000#64] } ∧
      n.toNat = L ∧ m.WF ∧ (∀ k (h : k < payload.length), m.readByte k = payload[k]) ∧
      ∀ a, L ≤ a → m.readByte a = s.buf.readByte a

/-- R83: "If `L > LMAX`, CONSTRUCT raises CAPACITY_EXCEEDED and loads nothing". -/
def Obligations.ConstructChecksTheCapacity : Prop :=
  ∀ (s : State) (L : Nat) (payload : List Byte), s.v = .empty → s.lmax < L →
    exec (.construct L payload) s = .next { s with outbox := s.outbox ++ [0xA000000000000000#64] }

/-- R104's table, and R69: READ and DESTROY while V = 0 are NOT_CONSTRUCTED, READ before its width or position is looked at;
CONSTRUCT while V = 1 is ALREADY_CONSTRUCTED. No state changes. -/
def Obligations.LifecycleErrorsAreAnswered : Prop :=
  (∀ (s : State) (pos width : Nat), s.v = .empty →
    exec (.read pos width) s = .next { s with outbox := s.outbox ++ [0x6000000000000000#64] }) ∧
  (∀ s : State, s.v = .empty → exec .destroy s = .next { s with outbox := s.outbox ++ [0x6000000000000000#64] }) ∧
  (∀ (s : State) (L : Nat) (payload : List Byte), s.v = .loaded →
    exec (.construct L payload) s = .next { s with outbox := s.outbox ++ [0x8000000000000000#64] })

/-- The effect of a successful DESTROY (R86), and its frame: V = EMPTY and the OK response; LEN and BUF hold their old values, and
everything else stays. A second DESTROY is NOT_CONSTRUCTED (R87), and "a new CONSTRUCT may follow". -/
def Obligations.DestroyEmptiesTheBlock : Prop :=
  ∀ s : State, s.v = .loaded →
    ∃ t, exec .destroy s = .next t ∧ t = { s with v := .empty, outbox := s.outbox ++ [0x0000000000000000#64] } ∧
      exec .destroy t = .next { t with outbox := t.outbox ++ [0x6000000000000000#64] } ∧
      ∀ L payload, (Instr.construct L payload).WF → L ≤ s.lmax → ∃ u, exec (.construct L payload) t = .next u ∧ u.v = .loaded

/-- R88's table of lifecycle transitions, row by row: the outcome and V after. -/
def Obligations.LifecycleTransitions : Prop :=
  (∀ (s : State) (L : Nat) (payload : List Byte), (Instr.construct L payload).WF →
    ∃ t st, exec (.construct L payload) s = .next t ∧ t.outbox = s.outbox ++ [responseWord st 0] ∧
      (s.v = .empty → L ≤ s.lmax → st = .ok ∧ t.v = .loaded) ∧
      (s.v = .empty → s.lmax < L → st = .capacityExceeded ∧ t.v = .empty) ∧
      (s.v = .loaded → st = .alreadyConstructed ∧ t.v = .loaded)) ∧
  (∀ (s : State) (pos width : Nat),
    ∃ t st d, exec (.read pos width) s = .next t ∧ t.outbox = s.outbox ++ [responseWord st d] ∧ t.v = s.v ∧
      (s.v = .empty → st = .notConstructed) ∧
      (s.v = .loaded → st = .ok ∨ st = .invalidWidth ∨ st = .outOfRange)) ∧
  (∀ s : State,
    ∃ t st, exec .destroy s = .next t ∧ t.outbox = s.outbox ++ [responseWord st 0] ∧ t.v = .empty ∧
      (s.v = .empty → st = .notConstructed) ∧ (s.v = .loaded → st = .ok)) ∧
  (∀ (s : State) (why : IllegalReason) (rest : List Byte), s.resetLine = [] →
    decode s.inbox = .ready (.illegal why) rest →
    ∃ t, step s = .next t ∧ t.outbox = s.outbox ++ [responseWord .illegalCommand 0] ∧ t.v = s.v) ∧
  (∀ (s : State) (line : List ResetEvent), s.resetLine = .betweenTransactions :: line →
    ∃ t, step s = .next t ∧ t.outbox = s.outbox ∧ t.v = .empty)

/-- R89 and R54: a word with OP = `11`, or with a reserved field not 0, is answered ILLEGAL_COMMAND whatever V is and changes no
state; "if OP = `01` its LEN payload bytes are taken and discarded", and a word with OP = `11` carries none. -/
def Obligations.IllegalWordsAreAnswered : Prop :=
  ∀ (s : State) (cmd : Word) (payload rest : List Byte),
    s.resetLine = [] → s.inbox = wordBytes cmd ++ payload ++ rest →
    payload.length = (if cmd.extractLsb 63 62 = 0b01#2 then (cmd.extractLsb 47 0).toNat else 0) →
    cmd.extractLsb 63 62 = 0b11#2 ∨
      (cmd.extractLsb 63 62 = 0b00#2 ∧ cmd.extractLsb 61 54 ≠ 0#8) ∨
      (cmd.extractLsb 63 62 = 0b01#2 ∧ cmd.extractLsb 61 48 ≠ 0#14) ∨
      (cmd.extractLsb 63 62 = 0b10#2 ∧ cmd.extractLsb 61 0 ≠ 0#62) →
    step s = .next { s with inbox := rest, outbox := s.outbox ++ [0xC000000000000000#64] }

/-! ## Responses -/

/-- R58: every response word has STATUS in bits 63:61, a reserved field in bits 60:48 that reads as 0, and DATA in bits 47:0. -/
def Obligations.ResponsesHaveTheirFormat : Prop :=
  ∀ (tr : Transaction) (s t : State), runTransaction tr s = .next t →
    ∃ (st : Status) (d : BitVec 48) (r : Word), t.outbox = s.outbox ++ [r] ∧
      r.extractLsb 63 61 = st.code ∧ r.extractLsb 60 48 = 0#13 ∧ r.extractLsb 47 0 = d ∧
      (st ≠ .ok → d = 0) ∧ (tr = .command .destroy → d = 0) ∧ (∀ L payload, tr = .command (.construct L payload) → d = 0)

/-- R106: an error's response word is `STATUS << 61`, and the error "writes none of V, LEN or BUF", records nothing and leaves the
block as if it had not happened. -/
def Obligations.ErrorsChangeNothing : Prop :=
  ∀ (tr : Transaction) (s t : State) (r : Word), runTransaction tr s = .next t → t.outbox = s.outbox ++ [r] →
    r.extractLsb 63 61 ≠ 0#3 →
    r = (r.extractLsb 63 61).zeroExtend 64 <<< 61 ∧ t = { s with outbox := s.outbox ++ [r] }

/-! ## Encoding -/

/-- The decoder reads back every well-formed command from its bytes, whatever follows them on the port. -/
def Obligations.DecodeOfEncode : Prop :=
  ∀ (i : Instr) (rest : List Byte), i.WF → decode (encode i ++ rest) = .ready (.command i) rest

/-- Each legal word has one meaning: what a word and its payload decode to is well formed and encodes to that word and that
payload. -/
def Obligations.EncodeOfDecode : Prop :=
  ∀ (cmd : Word) (payload : List Byte) (i : Instr), payload.length = payloadLength cmd →
    decodeWord cmd payload = .command i → i.WF ∧ encodeWord i = cmd ∧ payloadOf i = payload

/-- R51, R52, R53 and R55: by the masks and matches of the opcode table, which words are READ, CONSTRUCT and DESTROY, their
operands read unsigned from their fields; every other word is illegal. -/
def Obligations.MasksAndFieldsOfCommandWords : Prop :=
  ∀ (cmd : Word) (payload : List Byte),
    (cmd &&& 0xFFC0000000000000#64 = 0x0000000000000000#64 →
      decodeWord cmd payload = .command (.read (cmd.toNat % 2 ^ 48) (cmd.toNat / 2 ^ 48 % 2 ^ 6))) ∧
    (cmd &&& 0xFFFF000000000000#64 = 0x4000000000000000#64 →
      decodeWord cmd payload = .command (.construct (cmd.toNat % 2 ^ 48) payload)) ∧
    (cmd &&& 0xFFFFFFFFFFFFFFFF#64 = 0x8000000000000000#64 → decodeWord cmd payload = .command .destroy) ∧
    (cmd &&& 0xFFC0000000000000#64 ≠ 0x0000000000000000#64 → cmd &&& 0xFFFF000000000000#64 ≠ 0x4000000000000000#64 →
      cmd &&& 0xFFFFFFFFFFFFFFFF#64 ≠ 0x8000000000000000#64 → ∃ why, decodeWord cmd payload = .illegal why)

/-- R64: `READ p, w -> (0 << 62) | (w << 48) | p`, `CONSTRUCT n, [...] -> (1 << 62) | n, then the n bytes in list order`,
`DESTROY -> (2 << 62)`, and the rule's worked examples. -/
def Obligations.EncodingOfEachMnemonic : Prop :=
  (∀ p w, (Instr.read p w).WF →
    encode (.read p w) = wordBytes ((0#64 <<< 62) ||| (BitVec.ofNat 64 w <<< 48) ||| BitVec.ofNat 64 p)) ∧
  (∀ n bytes, (Instr.construct n bytes).WF →
    encode (.construct n bytes) = wordBytes ((1#64 <<< 62) ||| BitVec.ofNat 64 n) ++ bytes) ∧
  encode .destroy = wordBytes (2#64 <<< 62) ∧ 2#64 <<< 62 = 0x8000000000000000#64 ∧
  encode (.read 0 8) = wordBytes 0x0008000000000000#64 ∧ encode (.read 6 5) = wordBytes 0x0005000000000006#64 ∧
  encode (.read 7 32) = wordBytes 0x0020000000000007#64 ∧
  encode (.construct 2 [0xB2#8, 0x5A#8]) = wordBytes 0x4000000000000002#64 ++ [0xB2#8, 0x5A#8] ∧
  decodeWord 0xC000000000000000#64 [] = .illegal .reservedOpcode

/-- A few words written out from the spec, byte by byte in transport order (R36), and what they decode to (R64, R90). -/
def Obligations.WrittenOutWordsDecode : Prop :=
  decode [0x00#8, 0x05#8, 0x00#8, 0x00#8, 0x00#8, 0x00#8, 0x00#8, 0x06#8] = .ready (.command (.read 6 5)) [] ∧
  decode [0x40#8, 0x00#8, 0x00#8, 0x00#8, 0x00#8, 0x00#8, 0x00#8, 0x02#8, 0xB2#8, 0x5A#8, 0x77#8] =
    .ready (.command (.construct 2 [0xB2#8, 0x5A#8])) [0x77#8] ∧
  decode [0x80#8, 0x00#8, 0x00#8, 0x00#8, 0x00#8, 0x00#8, 0x00#8, 0x00#8] = .ready (.command .destroy) [] ∧
  decode [0xC0#8, 0x00#8, 0x00#8, 0x00#8, 0x00#8, 0x00#8, 0x00#8, 0x00#8] = .ready (.illegal .reservedOpcode) [] ∧
  decode [0x00#8, 0x40#8, 0x00#8, 0x00#8, 0x00#8, 0x00#8, 0x00#8, 0x08#8] = .ready (.illegal .readReservedField) [] ∧
  decode [0x80#8, 0x00#8, 0x00#8, 0x00#8, 0x00#8, 0x00#8, 0x00#8, 0x01#8] = .ready (.illegal .destroyReservedField) []

/-! ## The host: assembler, order of READs, SCAN -/

/-- R63's refusals and R64's words, for programs of one command: a line is refused exactly where R63 says, and else assembles to its
command's bytes; `.cmd` spells every 64-bit word with OP other than `01` alone, and needs its `.bytes` line, LEN bytes none above
255, with OP = `01`. Programs of several lines are AssembledLinesConcatenate's, SCAN lines ScanLineExpandsIntoReads's. -/
def Obligations.AssemblerRefusesWhatItMust : Prop :=
  ∀ lmax : Nat,
    (∀ p w, assemble lmax [.read p w] = if p < 2 ^ 48 ∧ w < 64 then some (encode (.read p w)) else none) ∧
    (∀ n ns, assemble lmax [.construct n ns] =
      if n < 2 ^ 48 ∧ ns.length = n ∧ ∀ b ∈ ns, b ≤ 255 then some (encode (.construct n (ns.map (BitVec.ofNat 8)))) else none) ∧
    assemble lmax [.destroy] = some (encode .destroy) ∧
    (∀ w, assemble lmax [.cmd w] = if w < 2 ^ 64 ∧ w / 2 ^ 62 ≠ 1 then some (wordBytes (BitVec.ofNat 64 w)) else none) ∧
    (∀ w ns, assemble lmax [.cmd w, .bytes ns] =
      if w < 2 ^ 64 ∧ w / 2 ^ 62 = 1 ∧ ns.length = w % 2 ^ 48 ∧ ∀ b ∈ ns, b ≤ 255
      then some (wordBytes (BitVec.ofNat 64 w) ++ ns.map (BitVec.ofNat 8)) else none) ∧
    ∀ ns, assemble lmax [.bytes ns] = none

/-- R63: a program is its lines in order. Lines behind lines that assemble are assembled from the buffer length known after those
(log entry 7), refused where they are refused alone, and their bytes follow. -/
def Obligations.AssembledLinesConcatenate : Prop :=
  ∀ (lmax : Nat) (known : Option Nat) (first second : List AsmLine) (bytes : List Byte),
    assembleFrom lmax known first = some bytes →
    assembleFrom lmax known (first ++ second) = (assembleFrom lmax (asmKnownAfter lmax known first) second).map (bytes ++ ·)

/-- R65, R92 and R94: `SCAN w` expands into READ 0, w to READ (N-1)w, w with N = TOTAL div w, and nothing else; it is refused (log
entry 7) exactly where R92's precondition fails: no buffer loaded, or a width not from 1 to 32. -/
def Obligations.ScanLineExpandsIntoReads : Prop :=
  ∀ lmax w : Nat,
    (∀ len, assembleFrom lmax (some len) [.scan w] =
      if 1 ≤ w ∧ w ≤ 32 then some ((List.range (8 * len / w)).flatMap fun k => encode (.read (k * w) w)) else none) ∧
    assembleFrom lmax none [.scan w] = none

/-- R63, R83, R88 and R92: an assembled program, sent to a block whose capacity and buffer length the assembler was given, runs to
its last byte, one response a step, and the buffer length the assembler then knows is the block's: LEN while LOADED, none while
EMPTY. So a CONSTRUCT that fails, for its capacity or because the block is LOADED, does not mislead a later SCAN (log entry 7). -/
def Obligations.AssemblerKnowsTheLoadedLength : Prop :=
  ∀ (s : State) (lines : List AsmLine) (bytes rest : List Byte),
    s.Inv → s.resetLine = [] → assembleFrom s.lmax (loadedLength s) lines = some bytes → s.inbox = bytes ++ rest →
    ∃ n t, core.run n s = .next t ∧ t.inbox = rest ∧ t.resetLine = [] ∧ t.lmax = s.lmax ∧
      t.outbox.length = s.outbox.length + n ∧ asmKnownAfter s.lmax (loadedLength s) lines = loadedLength t

/-- R92, R94 and R97: where an assembled program ends in `SCAN w`, the lines before it run to a LOADED block, the READs of SCAN are
those of a pass over the whole of the buffer that is loaded then, all answered OK, and their responses give that pass's
checksum (log entry 7). -/
def Obligations.AssembledScanReadsTheLoadedBuffer : Prop :=
  ∀ (s : State) (lines : List AsmLine) (w : Nat) (bytes rest : List Byte),
    s.Inv → s.resetLine = [] → assembleFrom s.lmax (loadedLength s) (lines ++ [.scan w]) = some bytes →
    s.inbox = bytes ++ rest →
    ∃ (n : Nat) (u : State) (rsps : List Word) (p : HostPass),
      core.run n s = .next u ∧ u.v = .loaded ∧ u.outbox.length = s.outbox.length + n ∧
      u.inbox = (List.range (8 * u.len.toNat / w)).flatMap (fun k => encode (.read (k * w) w)) ++ rest ∧
      core.run (n + 8 * u.len.toNat / w) s = .next { u with inbox := rest, outbox := u.outbox ++ rsps } ∧
      (∀ r ∈ rsps, r.extractLsb 63 61 = 0#3) ∧
      scan w (8 * u.len.toNat) u = .next ({ u with outbox := u.outbox ++ rsps }, p) ∧ p.sum = checksum rsps

/-- R45: READs of several threads "reach the one port in some order the host side chooses; ... every order gives each READ the same
response". For a given V, LEN and BUF there is one answer to each READ, and a port that holds any list of READs, in any order,
answers each with it and changes nothing else. -/
def Obligations.ReadsAnswerAlikeInEveryOrder : Prop :=
  ∀ s : State, ∃ answer : Instr → Word, ∀ (reads : List Instr) (rest : List Byte) (u : State),
    (∀ i ∈ reads, i.WF ∧ ∃ p w, i = .read p w) → u.v = s.v → u.len = s.len → u.buf = s.buf → u.resetLine = [] →
    u.inbox = reads.flatMap encode ++ rest →
    core.run reads.length u = .next { u with inbox := rest, outbox := u.outbox ++ reads.map answer }

/-- R45, R93 and R126: passes of several threads that share the block, in whatever order the host side gives them their turns (the
schedule of turns is log entry 11's; schedules in which a pass aborts are left out). Each pass stands where its own turns alone
would have brought it, with the same checksum, and V, LEN and BUF stay. -/
def Obligations.ConcurrentPassesAreIndependent : Prop :=
  ∀ (schedule : List Nat) (ths ths' : List ScanThread) (s t : State),
    interleave schedule ths s = .next (t, ths') →
    (t.v = s.v ∧ t.len = s.len ∧ t.buf = s.buf) ∧
      ∀ k th, ths[k]? = some th →
        ∃ u th', turns (schedule.count k) th s = .next (u, th') ∧ ths'[k]? = some th'

/-- R97 and R96: a pass over a loaded buffer issues exactly N = TOTAL div w READs, at positions k * w; every response is OK, and the
checksum is the sum of the values modulo 2^32. The block changes in nothing but its responses. -/
def Obligations.ScanSumsThePass : Prop :=
  ∀ (s : State) (w : Nat), s.v = .loaded → 1 ≤ w → w ≤ 32 →
    ∃ (rsps : List Word) (p : HostPass),
      scan w (8 * s.len.toNat) s = .next ({ s with outbox := s.outbox ++ rsps }, p) ∧
      rsps.length = 8 * s.len.toNat / w ∧ (∀ r ∈ rsps, r.extractLsb 63 61 = 0#3) ∧
      p.pos = 8 * s.len.toNat / w * w ∧
      p.sum.toNat = (∑ k ∈ Finset.range (8 * s.len.toNat / w),
        ∑ j ∈ Finset.range w, bufferBit s (k * w + j) * 2 ^ (w - 1 - j)) % 2 ^ 32

/-- R98: a response other than OK is fatal to the pass: it ends in a fault of the host program, which names the status, and a pass
that has a checksum had only OK responses; under R92's precondition and R95's pre-check no error occurs. -/
def Obligations.ScanAbortsOnAnError : Prop :=
  ∀ (s : State) (w bits : Nat), w ≤ bits →
    (s.v = .empty → scan w bits s = .fault (.scanAborted (some .notConstructed))) ∧
    (s.v = .loaded → w = 0 ∨ 32 < w → scan w bits s = .fault (.scanAborted (some .invalidWidth))) ∧
    (s.v = .loaded → 1 ≤ w → w ≤ 32 → 8 * s.len.toNat < bits / w * w →
      scan w bits s = .fault (.scanAborted (some .outOfRange))) ∧
    (s.v = .loaded → 1 ≤ w → w ≤ 32 → bits = 8 * s.len.toNat → ∃ t p, scan w bits s = .next (t, p)) ∧
    (∀ t p, scan w bits s = .next (t, p) → ∀ r ∈ t.outbox.drop s.outbox.length, r.extractLsb 63 61 = 0#3)

/-- R94: as a command sequence a pass is READ 0, w to READ (N-1)w, w. Sent on the port, it runs in N steps to the state the pass
ends in, and the pass's checksum is that of the responses. -/
def Obligations.ScanIsItsCommandSequence : Prop :=
  ∀ (s : State) (w : Nat) (rest : List Byte), s.Inv → s.v = .loaded → 1 ≤ w → w ≤ 32 → s.resetLine = [] →
    s.inbox = (scanReads w (8 * s.len.toNat)).flatMap encode ++ rest →
    ∃ (rsps : List Word) (p : HostPass),
      core.run (8 * s.len.toNat / w) s = .next { s with inbox := rest, outbox := s.outbox ++ rsps } ∧
      scan w (8 * s.len.toNat) s = .next ({ s with outbox := s.outbox ++ rsps }, p) ∧ p.sum = checksum rsps

/-- R127: "A READ issued right after the response of a successful CONSTRUCT sees the whole new buffer; a READ right after a
successful DESTROY is NOT_CONSTRUCTED". -/
def Obligations.ReadAfterConstructSeesThePayload : Prop :=
  (∀ (s t : State) (L pos width : Nat) (payload : List Byte),
    s.Inv → (Instr.construct L payload).WF → s.v = .empty → L ≤ s.lmax → 1 ≤ width → width ≤ 32 → pos + width ≤ 8 * L →
    exec (.construct L payload) s = .next t →
    ∃ d : BitVec 48, exec (.read pos width) t = .next { t with outbox := t.outbox ++ [responseWord .ok d] } ∧
      d.toNat = ∑ k ∈ Finset.range width,
        (((payload.getD ((pos + k) / 8) 0).toNat >>> (7 - (pos + k) % 8)) &&& 1) * 2 ^ (width - 1 - k)) ∧
  (∀ (s t : State) (pos width : Nat), s.v = .loaded → exec .destroy s = .next t →
    exec (.read pos width) t = .next { t with outbox := t.outbox ++ [0x6000000000000000#64] })
end

