-- ==== Sys2Proof/Laws/Memory.lean ====
section
/-! SUPPORT. The laws of buffer bytes: a write is read back and leaves every other byte alone, keeps the canonical form and adds
no address but its own, and two memories in canonical form that read alike are equal. -/

namespace Sys2Proof.Machine.Memory

theorem wf_nil : Memory.WF [] := ⟨List.Pairwise.nil, by simp⟩

theorem wf_cons {k : Nat} {b : Byte} {m : Memory} :
    Memory.WF ((k, b) :: m) ↔ (∀ c ∈ m, k < c.1) ∧ b ≠ unlisted ∧ m.WF := by
  simp only [Memory.WF, List.pairwise_cons, List.forall_mem_cons]
  tauto

theorem readByte_nil (a : Nat) : readByte [] a = unlisted := rfl

theorem readByte_cons (k : Nat) (b : Byte) (m : Memory) (a : Nat) :
    readByte ((k, b) :: m) a = if k = a then b else m.readByte a := rfl

/-- An address below every listed one reads as unlisted. -/
theorem readByte_of_lt {m : Memory} {a : Nat} (h : ∀ c ∈ m, a < c.1) : m.readByte a = unlisted := by
  induction m with
  | nil => rfl
  | cons c m ih =>
    obtain ⟨k, b⟩ := c
    have hk : a < k := h (k, b) (by simp)
    rw [readByte_cons, if_neg (by omega), ih fun c hc => h c (by simp [hc])]

/-- A write adds no address but its own. -/
theorem mem_writeByte {m : Memory} {a : Nat} {b : Byte} {c : Host.Cell} (h : c ∈ m.writeByte a b) :
    c = (a, b) ∨ c ∈ m := by
  induction m with
  | nil =>
    simp only [writeByte] at h
    split at h <;> simp_all
  | cons d m ih =>
    obtain ⟨k, e⟩ := d
    simp only [writeByte] at h
    split at h
    · split at h <;> simp_all
    · split at h
      · split at h
        · exact .inr (by simp [h])
        · simp only [List.mem_cons] at h ⊢; tauto
      · simp only [List.mem_cons] at h ⊢
        rcases h with h | h
        · tauto
        · have := ih h; tauto

/-- A write keeps the canonical form. -/
theorem writeByte_wf {m : Memory} (h : m.WF) (a : Nat) (b : Byte) : (m.writeByte a b).WF := by
  induction m with
  | nil =>
    simp only [writeByte]
    split
    · exact wf_nil
    · exact wf_cons.2 ⟨by simp, ‹_›, wf_nil⟩
  | cons d m ih =>
    obtain ⟨k, e⟩ := d
    have ⟨hk, he, hm⟩ := wf_cons.1 h
    simp only [writeByte]
    split
    · split
      · exact h
      · refine wf_cons.2 ⟨?_, ‹_›, h⟩
        intro c hc
        rcases List.mem_cons.1 hc with rfl | hc
        · assumption
        · have := hk c hc; omega
    · split
      · subst_vars
        split
        · exact hm
        · exact wf_cons.2 ⟨hk, ‹_›, hm⟩
      · refine wf_cons.2 ⟨?_, he, ih hm⟩
        intro c hc
        rcases mem_writeByte hc with rfl | hc
        · show k < a; omega
        · exact hk c hc

/-- Read after write. -/
theorem readByte_writeByte {m : Memory} (h : m.WF) (a : Nat) (b : Byte) (x : Nat) :
    (m.writeByte a b).readByte x = if x = a then b else m.readByte x := by
  induction m with
  | nil =>
    simp only [writeByte]
    split
    · subst_vars; split <;> simp [readByte_nil]
    · simp only [readByte_cons, readByte_nil, eq_comm]
  | cons d m ih =>
    obtain ⟨k, e⟩ := d
    have ⟨hk, he, hm⟩ := wf_cons.1 h
    simp only [writeByte]
    split
    · split
      · split
        · subst_vars
          exact readByte_of_lt fun c hc => by
            rcases List.mem_cons.1 hc with rfl | hc
            · assumption
            · have := hk c hc; omega
        · rfl
      · rw [readByte_cons]
        simp only [eq_comm]
    · split
      · rename_i _ hak
        subst hak
        split
        · rename_i hb
          subst hb
          rw [readByte_cons]
          by_cases hx : x = a
          · subst hx; simp [readByte_of_lt hk]
          · rw [if_neg hx, if_neg (Ne.symm hx)]
        · rw [readByte_cons, readByte_cons]
          by_cases hx : x = a
          · rw [if_pos hx.symm, if_pos hx]
          · rw [if_neg (Ne.symm hx), if_neg hx, if_neg (Ne.symm hx)]
      · rw [readByte_cons, readByte_cons, ih hm]
        by_cases hx : k = x
        · subst hx
          rw [if_pos rfl, if_neg (by omega), if_pos rfl]
        · rw [if_neg hx, if_neg hx]

/-- In canonical form, equal readings are equal memories. -/
theorem eq_of_readByte {m n : Memory} (hm : m.WF) (hn : n.WF) (h : ∀ a, m.readByte a = n.readByte a) : m = n := by
  induction m generalizing n with
  | nil =>
    cases n with
    | nil => rfl
    | cons d n =>
      obtain ⟨k, e⟩ := d
      have := h k
      rw [readByte_cons, if_pos rfl] at this
      exact absurd this.symm (wf_cons.1 hn).2.1
  | cons c m ih =>
    obtain ⟨j, b⟩ := c
    have ⟨hj, hb, hm'⟩ := wf_cons.1 hm
    cases n with
    | nil =>
      have := h j
      rw [readByte_cons, if_pos rfl] at this
      exact absurd this hb
    | cons d n =>
      obtain ⟨k, e⟩ := d
      have ⟨hk, he, hn'⟩ := wf_cons.1 hn
      have hjk : j = k := by
        by_contra hne
        rcases Nat.lt_or_gt_of_ne hne with hlt | hlt
        · have := h j
          rw [readByte_cons, if_pos rfl, readByte_of_lt fun c hc => by
            rcases List.mem_cons.1 hc with rfl | hc
            · exact hlt
            · have := hk c hc; omega] at this
          exact hb this
        · have := h k
          rw [readByte_cons k e, if_pos rfl, readByte_of_lt fun c hc => by
            rcases List.mem_cons.1 hc with rfl | hc
            · exact hlt
            · have := hj c hc; omega] at this
          exact he this.symm
      subst hjk
      have hbe : b = e := by simpa [readByte_cons] using h j
      subst hbe
      rw [ih hm' hn' fun a => ?_]
      by_cases ha : j = a
      · subst ha; rw [readByte_of_lt hj, readByte_of_lt hk]
      · simpa [readByte_cons, ha] using h a

theorem readBig_zero (m : Memory) (a : Nat) : m.readBig a 0 = 0 := rfl

theorem readBig_succ (m : Memory) (a n : Nat) :
    m.readBig a (n + 1) = m.readBig a n * 256 + (m.readByte (a + n)).toNat := rfl

theorem readBig_lt (m : Memory) (a n : Nat) : m.readBig a n < 256 ^ n := by
  induction n with
  | zero => simp [readBig_zero]
  | succ n ih =>
    have := (m.readByte (a + n)).isLt
    rw [readBig_succ, pow_succ]
    omega

/-- MemRead depends on its own bytes only. -/
theorem readBig_congr {m n : Memory} {a k : Nat} (h : ∀ j < k, m.readByte (a + j) = n.readByte (a + j)) :
    m.readBig a k = n.readBig a k := by
  induction k with
  | zero => rfl
  | succ k ih => rw [readBig_succ, readBig_succ, ih fun j hj => h j (by omega), h k (by omega)]

end Sys2Proof.Machine.Memory
end

