-- ==== Sys2Proof/Laws/State.lean ====
section
/-! SUPPORT. One lemma for each field and each update of State (Machine/Ops.lean), so that no proof unfolds a record update. -/

namespace Sys2Proof.Machine.State

variable (s : State)

@[simp] theorem setV_v (x : Lifecycle) : (s.setV x).v = x := rfl
@[simp] theorem setV_len (x : Lifecycle) : (s.setV x).len = s.len := rfl
@[simp] theorem setV_buf (x : Lifecycle) : (s.setV x).buf = s.buf := rfl
@[simp] theorem setV_lmax (x : Lifecycle) : (s.setV x).lmax = s.lmax := rfl
@[simp] theorem setV_inbox (x : Lifecycle) : (s.setV x).inbox = s.inbox := rfl
@[simp] theorem setV_outbox (x : Lifecycle) : (s.setV x).outbox = s.outbox := rfl
@[simp] theorem setV_resetLine (x : Lifecycle) : (s.setV x).resetLine = s.resetLine := rfl
@[simp] theorem setV_draws (x : Lifecycle) : (s.setV x).draws = s.draws := rfl

@[simp] theorem setLen_v (x : BitVec 48) : (s.setLen x).v = s.v := rfl
@[simp] theorem setLen_len (x : BitVec 48) : (s.setLen x).len = x := rfl
@[simp] theorem setLen_buf (x : BitVec 48) : (s.setLen x).buf = s.buf := rfl
@[simp] theorem setLen_lmax (x : BitVec 48) : (s.setLen x).lmax = s.lmax := rfl
@[simp] theorem setLen_inbox (x : BitVec 48) : (s.setLen x).inbox = s.inbox := rfl
@[simp] theorem setLen_outbox (x : BitVec 48) : (s.setLen x).outbox = s.outbox := rfl
@[simp] theorem setLen_resetLine (x : BitVec 48) : (s.setLen x).resetLine = s.resetLine := rfl
@[simp] theorem setLen_draws (x : BitVec 48) : (s.setLen x).draws = s.draws := rfl

@[simp] theorem setBuf_v (m : Memory) : (s.setBuf m).v = s.v := rfl
@[simp] theorem setBuf_len (m : Memory) : (s.setBuf m).len = s.len := rfl
@[simp] theorem setBuf_buf (m : Memory) : (s.setBuf m).buf = m := rfl
@[simp] theorem setBuf_lmax (m : Memory) : (s.setBuf m).lmax = s.lmax := rfl
@[simp] theorem setBuf_inbox (m : Memory) : (s.setBuf m).inbox = s.inbox := rfl
@[simp] theorem setBuf_outbox (m : Memory) : (s.setBuf m).outbox = s.outbox := rfl
@[simp] theorem setBuf_resetLine (m : Memory) : (s.setBuf m).resetLine = s.resetLine := rfl
@[simp] theorem setBuf_draws (m : Memory) : (s.setBuf m).draws = s.draws := rfl

@[simp] theorem setInbox_v (bytes : List Byte) : (s.setInbox bytes).v = s.v := rfl
@[simp] theorem setInbox_len (bytes : List Byte) : (s.setInbox bytes).len = s.len := rfl
@[simp] theorem setInbox_buf (bytes : List Byte) : (s.setInbox bytes).buf = s.buf := rfl
@[simp] theorem setInbox_lmax (bytes : List Byte) : (s.setInbox bytes).lmax = s.lmax := rfl
@[simp] theorem setInbox_inbox (bytes : List Byte) : (s.setInbox bytes).inbox = bytes := rfl
@[simp] theorem setInbox_outbox (bytes : List Byte) : (s.setInbox bytes).outbox = s.outbox := rfl
@[simp] theorem setInbox_resetLine (bytes : List Byte) : (s.setInbox bytes).resetLine = s.resetLine := rfl
@[simp] theorem setInbox_draws (bytes : List Byte) : (s.setInbox bytes).draws = s.draws := rfl

@[simp] theorem push_v (rsp : Word) : (s.push rsp).v = s.v := rfl
@[simp] theorem push_len (rsp : Word) : (s.push rsp).len = s.len := rfl
@[simp] theorem push_buf (rsp : Word) : (s.push rsp).buf = s.buf := rfl
@[simp] theorem push_lmax (rsp : Word) : (s.push rsp).lmax = s.lmax := rfl
@[simp] theorem push_inbox (rsp : Word) : (s.push rsp).inbox = s.inbox := rfl
@[simp] theorem push_outbox (rsp : Word) : (s.push rsp).outbox = s.outbox ++ [rsp] := rfl
@[simp] theorem push_resetLine (rsp : Word) : (s.push rsp).resetLine = s.resetLine := rfl
@[simp] theorem push_draws (rsp : Word) : (s.push rsp).draws = s.draws := rfl

@[simp] theorem setResetLine_v (line : List ResetEvent) : (s.setResetLine line).v = s.v := rfl
@[simp] theorem setResetLine_len (line : List ResetEvent) : (s.setResetLine line).len = s.len := rfl
@[simp] theorem setResetLine_buf (line : List ResetEvent) : (s.setResetLine line).buf = s.buf := rfl
@[simp] theorem setResetLine_lmax (line : List ResetEvent) : (s.setResetLine line).lmax = s.lmax := rfl
@[simp] theorem setResetLine_inbox (line : List ResetEvent) : (s.setResetLine line).inbox = s.inbox := rfl
@[simp] theorem setResetLine_outbox (line : List ResetEvent) : (s.setResetLine line).outbox = s.outbox := rfl
@[simp] theorem setResetLine_resetLine (line : List ResetEvent) : (s.setResetLine line).resetLine = line := rfl
@[simp] theorem setResetLine_draws (line : List ResetEvent) : (s.setResetLine line).draws = s.draws := rfl

@[simp] theorem draw_v : (s.draw).v = s.v := rfl
@[simp] theorem draw_len : (s.draw).len = s.len := rfl
@[simp] theorem draw_buf : (s.draw).buf = s.buf := rfl
@[simp] theorem draw_lmax : (s.draw).lmax = s.lmax := rfl
@[simp] theorem draw_inbox : (s.draw).inbox = s.inbox := rfl
@[simp] theorem draw_outbox : (s.draw).outbox = s.outbox := rfl
@[simp] theorem draw_resetLine : (s.draw).resetLine = s.resetLine := rfl
@[simp] theorem draw_draws : (s.draw).draws = s.draws + 1 := rfl

theorem resetOf_v (lmax : Nat) : (State.resetOf lmax).v = .empty := rfl

theorem resetOf_lmax (lmax : Nat) : (State.resetOf lmax).lmax = lmax := rfl

end Sys2Proof.Machine.State
end

