-- ==== Sys2Proof/Laws/Ops.lean ====
section
/-! SUPPORT. What each primitive of `00_scope.md` R12 can do, said once. -/

namespace Sys2Proof.Machine

theorem memRead_eq_some {s : State} {a n x : Nat} :
    memRead s a n = some x ↔ a + n ≤ s.len.toNat ∧ x = s.buf.readBig a n := by
  unfold memRead
  split <;> simp_all [eq_comm]

theorem memWrite_eq_some {s t : State} {a : Nat} {b : Byte} :
    memWrite s a b = some t ↔ a < s.lmax ∧ t = s.setBuf (s.buf.writeByte a b) := by
  unfold memWrite
  split <;> simp_all [eq_comm]

theorem setBuf_setBuf (s : State) (m n : Memory) : (s.setBuf m).setBuf n = s.setBuf n := rfl

/-- A sequence of writes that ends inside BUF[0..LMAX-1] is carried out, and changes BUF alone: its own bytes become those
written, every other byte stays, the canonical form stays, and no address from LMAX up is listed. -/
theorem memWriteAll_spec (s : State) (a : Nat) (bytes : List Byte) (h : a + bytes.length ≤ s.lmax) :
    ∃ m : Memory, memWriteAll s a bytes = some (s.setBuf m) ∧
      ((∀ c ∈ s.buf, c.1 < s.lmax) → ∀ c ∈ m, c.1 < s.lmax) ∧
      (s.buf.WF → m.WF ∧ (∀ x, x < a ∨ a + bytes.length ≤ x → m.readByte x = s.buf.readByte x) ∧
        ∀ k (hk : k < bytes.length), m.readByte (a + k) = bytes[k]) := by
  induction bytes generalizing s a with
  | nil => exact ⟨s.buf, rfl, id, fun hw => ⟨hw, fun _ _ => rfl, by simp⟩⟩
  | cons b bytes ih =>
    simp only [List.length_cons] at h
    obtain ⟨m, hm, hin, hwf⟩ := ih (s.setBuf (s.buf.writeByte a b)) (a + 1) (by simp; omega)
    refine ⟨m, ?_, ?_, ?_⟩
    · have hw : memWrite s a b = some (s.setBuf (s.buf.writeByte a b)) := memWrite_eq_some.2 ⟨by omega, rfl⟩
      simp only [memWriteAll, hw, hm, setBuf_setBuf]
    · intro hs
      refine hin fun c hc => ?_
      rcases Memory.mem_writeByte hc with rfl | hc
      · show a < s.lmax; omega
      · exact hs c hc
    · intro hs
      obtain ⟨hmwf, hout, hat⟩ := hwf (Memory.writeByte_wf hs a b)
      refine ⟨hmwf, fun x hx => ?_, fun k hk => ?_⟩
      · simp only [List.length_cons] at hx
        rw [hout x (by omega)]
        simp only [State.setBuf_buf, Memory.readByte_writeByte hs, if_neg (show x ≠ a by omega)]
      · cases k with
        | zero =>
          rw [Nat.add_zero, hout a (by omega)]
          simp [Memory.readByte_writeByte hs]
        | succ k =>
          simp only [List.length_cons] at hk
          have := hat k (by omega)
          rw [show a + (k + 1) = a + 1 + k by omega, this]
          simp

/-- Writing changes nothing but BUF. -/
theorem memWriteAll_frame {s t : State} {a : Nat} {bytes : List Byte} (h : memWriteAll s a bytes = some t) :
    t = s.setBuf t.buf := by
  induction bytes generalizing s a with
  | nil => cases h; rfl
  | cons b bytes ih =>
    simp only [memWriteAll] at h
    split at h
    · cases h
    · rename_i u hu
      obtain ⟨-, rfl⟩ := memWrite_eq_some.1 hu
      rw [ih h]
      rfl

theorem raise_eq (st : Status) (s : State) : raise st s = .next (s.push (responseWord st 0)) := rfl

theorem respondOk_eq (d : BitVec 48) (s : State) : respondOk d s = .next (s.push (responseWord .ok d)) := rfl

end Sys2Proof.Machine
end

