-- ==== Sys2Proof/Laws/Exec.lean ====
section
/-! SUPPORT. What each meaning can do, said once: if it answers a next state, then one of these cases holds. -/

namespace Sys2Proof.Machine

theorem spanBytes_eq (pos width : Nat) : spanBytes pos width = (pos % 8 + width + 7) / 8 := rfl

/-- A READ that answers changes nothing but the responses. -/
theorem execRead_frame {pos width : Nat} {s t : State} (h : execRead pos width s = .next t) :
    ∃ st d, t = s.push (responseWord st d) ∧ (st ≠ .ok → d = 0) := by
  unfold execRead at h
  split at h
  · cases h; exact ⟨_, _, rfl, fun _ => rfl⟩
  · split at h
    · cases h; exact ⟨_, _, rfl, fun _ => rfl⟩
    · split at h
      · cases h; exact ⟨_, _, rfl, fun _ => rfl⟩
      · split at h
        · cases h
        · cases h; exact ⟨_, _, rfl, fun h => absurd rfl h⟩

/-- The three ways CONSTRUCT answers. -/
theorem execConstruct_cases {len : Nat} {payload : List Byte} {s t : State}
    (h : execConstruct len payload s = .next t) :
    (s.v = .loaded ∧ t = s.push (responseWord .alreadyConstructed 0)) ∨
    (s.v = .empty ∧ s.lmax < len ∧ t = s.push (responseWord .capacityExceeded 0)) ∨
    (s.v = .empty ∧ len ≤ s.lmax ∧ ∃ u, memWriteAll s 0 payload = some u ∧
      t = ((u.setLen (BitVec.ofNat 48 len)).setV .loaded).push (responseWord .ok 0)) := by
  unfold execConstruct at h
  split at h
  · cases h; exact .inl ⟨‹_›, rfl⟩
  · have hv : s.v = .empty := by cases hs : s.v <;> simp_all
    split at h
    · cases h; exact .inr (.inl ⟨hv, ‹_›, rfl⟩)
    · split at h
      · cases h
      · cases h; exact .inr (.inr ⟨hv, by omega, _, ‹_›, rfl⟩)

/-- The two ways DESTROY answers. -/
theorem execDestroy_cases {s t : State} (h : execDestroy s = .next t) :
    (s.v = .empty ∧ t = s.push (responseWord .notConstructed 0)) ∨
    (s.v = .loaded ∧ t = (s.setV .empty).push (responseWord .ok 0)) := by
  unfold execDestroy at h
  split at h
  · cases h; exact .inl ⟨‹_›, rfl⟩
  · cases h
    exact .inr ⟨by cases hs : s.v <;> simp_all, rfl⟩

end Sys2Proof.Machine
end

