-- ==== Sys2Proof/Laws/Assembler.lean ====
section
/-! SUPPORT. The assembler: what its helpers answer, and that the buffer length it knows follows what a transaction does. -/

namespace Sys2Proof.Machine

theorem asmBytes_eq (ns : List Nat) :
    asmBytes ns = if ∀ b ∈ ns, b ≤ 255 then some (ns.map (BitVec.ofNat 8)) else none := by
  unfold asmBytes
  congr 1
  simp only [List.all_eq_true, decide_eq_true_eq]
  exact propext ⟨fun h b hb => by have := h b hb; omega, fun h b hb => by have := h b hb; omega⟩

theorem asmJoin_eq_some {first rest : Option (List Byte)} {bytes : List Byte} (h : asmJoin first rest = some bytes) :
    ∃ bs cs, first = some bs ∧ rest = some cs ∧ bytes = bs ++ cs := by
  unfold asmJoin at h
  split at h
  · cases h; exact ⟨_, _, rfl, rfl, rfl⟩
  · cases h

@[simp] theorem asmJoin_nil (first : Option (List Byte)) : asmJoin first (some []) = first := by
  cases first <;> simp [asmJoin]

theorem asmCommand_eq_some {i : Instr} {bytes : List Byte} (h : asmCommand i = some bytes) : i.WF ∧ bytes = encode i := by
  unfold asmCommand at h
  split at h
  · cases h; exact ⟨‹_›, rfl⟩
  · cases h

theorem asmRaw_eq_some {word : Nat} {payload bytes : List Byte} (h : asmRaw word payload = some bytes) :
    payload.length = payloadLength (BitVec.ofNat 64 word) ∧ bytes = wordBytes (BitVec.ofNat 64 word) ++ payload := by
  unfold asmRaw at h
  split at h
  · rename_i hp; cases h; exact ⟨hp.2, rfl⟩
  · cases h

theorem asmScan_eq_some {known : Option Nat} {w : Nat} {bytes : List Byte} (h : asmScan known w = some bytes) :
    ∃ len, known = some len ∧ 1 ≤ w ∧ w ≤ Config.maxWidth ∧ bytes = (scanReads w (8 * len)).flatMap encode := by
  unfold asmScan at h
  split at h
  · split at h
    · rename_i len hw; cases h; exact ⟨len, rfl, hw.1, hw.2, rfl⟩
    · cases h
  · cases h

/-- A `.cmd` line with no `.bytes` line behind it. -/
theorem assembleFrom_cmd (lmax : Nat) (known : Option Nat) (word : Nat) (lines : List AsmLine)
    (h : ∀ ns rest, lines ≠ .bytes ns :: rest) :
    assembleFrom lmax known (.cmd word :: lines) =
      if opField (BitVec.ofNat 64 word) = 0b01#2 then none
      else asmJoin (asmRaw word []) (assembleFrom lmax (asmKnownLine lmax known (.cmd word)) lines) := by
  rw [assembleFrom]
  exact h

/-- The payload's bytes do not bear on the length known after a word. -/
theorem asmKnown_decodeWord (lmax : Nat) (known : Option Nat) (cmd : Word) (payload payload' : List Byte) :
    asmKnown lmax known (decodeWord cmd payload) = asmKnown lmax known (decodeWord cmd payload') := by
  unfold decodeWord
  split
  · split <;> rfl
  · split
    · split <;> rfl
    · split
      · split <;> rfl
      · rfl

@[simp] theorem loadedLength_push (s : State) (rsp : Word) : loadedLength (s.push rsp) = loadedLength s := rfl

@[simp] theorem loadedLength_setInbox (s : State) (bytes : List Byte) : loadedLength (s.setInbox bytes) = loadedLength s := rfl

theorem loadedLength_of_empty {s : State} (h : s.v = .empty) : loadedLength s = none := by
  unfold loadedLength; rw [h]; rfl

theorem loadedLength_of_loaded {s : State} (h : s.v = .loaded) : loadedLength s = some s.len.toNat := by
  unfold loadedLength; rw [if_pos h]

/-- A transaction that is answered leaves the block with the buffer length the host then knows (R83, R86, R88). -/
theorem loadedLength_of_runTransaction {tr : Transaction} {s t : State}
    (hl : ∀ len payload, tr = .command (.construct len payload) → len < 2 ^ 48) (h : runTransaction tr s = .next t) :
    loadedLength t = asmKnown s.lmax (loadedLength s) tr := by
  match tr, hl, h with
  | .illegal _, _, h => cases h; rfl
  | .command (.read _ _), _, h =>
    obtain ⟨_, _, rfl, -⟩ := execRead_frame h
    rfl
  | .command .destroy, _, h =>
    rcases execDestroy_cases h with ⟨hv, rfl⟩ | ⟨-, rfl⟩
    · exact loadedLength_of_empty hv
    · rfl
  | .command (.construct len payload), hl, h =>
    rcases execConstruct_cases h with ⟨hv, rfl⟩ | ⟨hv, hc, rfl⟩ | ⟨hv, hc, u, -, rfl⟩
    · rw [loadedLength_push, loadedLength_of_loaded hv]; rfl
    · rw [loadedLength_push, loadedLength_of_empty hv]
      change none = Option.or none (if len ≤ s.lmax then some len else none)
      rw [if_neg (by omega)]; rfl
    · rw [loadedLength_of_empty hv]
      change some (BitVec.ofNat 48 len).toNat = Option.or none (if len ≤ s.lmax then some len else none)
      rw [if_pos hc, BitVec.toNat_ofNat, Nat.mod_eq_of_lt (hl len payload rfl)]; rfl

end Sys2Proof.Machine
end

