-- ==== Sys2Proof/Laws/Decode.lean ====
section
/-! SUPPORT. The laws of the byte transport and of framing: eight bytes are a word and a word is eight bytes, and what a whole
transaction on the port is made of. -/

namespace Sys2Proof

theorem length_wordBytes (w : Word) : (wordBytes w).length = 8 := rfl

/-- Concatenation, read as numbers: the left part is the more significant. -/
theorem toNat_append_eq {n m : Nat} (x : BitVec n) (y : BitVec m) : (x ++ y).toNat = x.toNat * 2 ^ m + y.toNat := by
  rw [BitVec.toNat_append, ← Nat.shiftLeft_add_eq_or_of_lt y.isLt, Nat.shiftLeft_eq]

/-- A field, read as a number (R10: `w[hi:lo] = (w >> lo) mod 2^(hi-lo+1)`). -/
theorem toNat_extractLsb_eq {n : Nat} (w : BitVec n) (hi lo : Nat) :
    (w.extractLsb hi lo).toNat = w.toNat / 2 ^ lo % 2 ^ (hi - lo + 1) := by
  rw [BitVec.extractLsb_toNat, Nat.shiftRight_eq_div_pow]

theorem toNat_eightBytes (b7 b6 b5 b4 b3 b2 b1 b0 : Byte) :
    (b7 ++ b6 ++ b5 ++ b4 ++ b3 ++ b2 ++ b1 ++ b0).toNat =
      b7.toNat * 2 ^ 56 + b6.toNat * 2 ^ 48 + b5.toNat * 2 ^ 40 + b4.toNat * 2 ^ 32 + b3.toNat * 2 ^ 24 +
        b2.toNat * 2 ^ 16 + b1.toNat * 2 ^ 8 + b0.toNat := by
  simp only [toNat_append_eq]
  omega

theorem takeWord_wordBytes (w : Word) (rest : List Byte) : takeWord (wordBytes w ++ rest) = some (w, rest) := by
  have h : w.extractLsb 63 56 ++ w.extractLsb 55 48 ++ w.extractLsb 47 40 ++ w.extractLsb 39 32 ++
      w.extractLsb 31 24 ++ w.extractLsb 23 16 ++ w.extractLsb 15 8 ++ w.extractLsb 7 0 = w := by
    apply BitVec.eq_of_toNat_eq
    have := w.isLt
    refine (toNat_eightBytes _ _ _ _ _ _ _ _).trans ?_
    simp only [toNat_extractLsb_eq]
    omega
  simp only [wordBytes, List.cons_append, List.nil_append, takeWord]
  exact congrArg (fun v => some (v, rest)) h

theorem takeWord_eq_some {bytes rest : List Byte} {w : Word} (h : takeWord bytes = some (w, rest)) :
    bytes = wordBytes w ++ rest := by
  match bytes, h with
  | b7 :: b6 :: b5 :: b4 :: b3 :: b2 :: b1 :: b0 :: tail, h =>
    simp only [takeWord, Option.some.injEq, Prod.mk.injEq] at h
    obtain ⟨hw, rfl⟩ := h
    have hn : w.toNat = _ := hw ▸ toNat_eightBytes b7 b6 b5 b4 b3 b2 b1 b0
    have := b7.isLt; have := b6.isLt; have := b5.isLt; have := b4.isLt
    have := b3.isLt; have := b2.isLt; have := b1.isLt; have := b0.isLt
    simp only [wordBytes, List.cons_append, List.nil_append, List.cons.injEq, and_true]
    refine ⟨?_, ?_, ?_, ?_, ?_, ?_, ?_, ?_⟩ <;>
    · apply BitVec.eq_of_toNat_eq
      rw [toNat_extractLsb_eq, hn]
      omega

theorem takeWord_eq_none {bytes : List Byte} : takeWord bytes = none ↔ bytes.length < 8 := by
  constructor
  · intro h
    by_contra hlen
    match bytes, h, hlen with
    | _ :: _ :: _ :: _ :: _ :: _ :: _ :: _ :: _, h, _ => simp [takeWord] at h
    | [], _, hlen => simp at hlen
    | [_], _, hlen => simp at hlen
    | [_, _], _, hlen => simp at hlen
    | [_, _, _], _, hlen => simp at hlen
    | [_, _, _, _], _, hlen => simp at hlen
    | [_, _, _, _, _], _, hlen => simp at hlen
    | [_, _, _, _, _, _], _, hlen => simp at hlen
    | [_, _, _, _, _, _, _], _, hlen => simp at hlen
  · intro h
    match hw : takeWord bytes with
    | none => rfl
    | some (w, rest) =>
      have := congrArg List.length (takeWord_eq_some hw)
      simp only [List.length_append, length_wordBytes] at this
      omega

/-- A whole transaction at the head of the port: its word, its payload of the length the word calls for, and what follows. -/
theorem decode_eq_ready {bytes rest : List Byte} {t : Transaction} :
    decode bytes = .ready t rest ↔
      ∃ cmd payload, bytes = wordBytes cmd ++ payload ++ rest ∧ payload.length = payloadLength cmd ∧
        t = decodeWord cmd payload := by
  constructor
  · intro h
    unfold decode at h
    split at h
    · split at h <;> cases h
    · rename_i cmd tail hw
      split at h
      · cases h
      · simp only [Framed.ready.injEq] at h
        obtain ⟨rfl, rfl⟩ := h
        refine ⟨cmd, tail.take (payloadLength cmd), ?_, ?_, rfl⟩
        · rw [List.append_assoc, List.take_append_drop]
          exact takeWord_eq_some hw
        · rw [List.length_take]; omega
  · rintro ⟨cmd, payload, rfl, hlen, rfl⟩
    unfold decode
    rw [List.append_assoc, takeWord_wordBytes]
    simp [← hlen]

/-- What a decoded CONSTRUCT is made of. -/
theorem decodeWord_eq_construct {cmd : Word} {payload bytes : List Byte} {len : Nat}
    (h : decodeWord cmd payload = .command (.construct len bytes)) :
    opField cmd = 0b01#2 ∧ len = (lenField cmd).toNat ∧ bytes = payload := by
  unfold decodeWord at h
  split at h
  · split at h <;> cases h
  · split at h
    · split at h
      · cases h
      · cases h; exact ⟨‹_›, rfl, rfl⟩
    · split at h
      · split at h <;> cases h
      · cases h

/-- A CONSTRUCT on the port brings exactly LEN payload bytes (R56). -/
theorem payload_length_of_decode {bytes rest payload : List Byte} {len : Nat}
    (h : decode bytes = .ready (.command (.construct len payload)) rest) : payload.length = len ∧ len < 2 ^ 48 := by
  obtain ⟨cmd, p, -, hlen, hd⟩ := decode_eq_ready.1 h
  obtain ⟨hop, rfl, rfl⟩ := decodeWord_eq_construct hd.symm
  rw [hlen, payloadLength, if_pos hop]
  exact ⟨rfl, (lenField cmd).isLt⟩

end Sys2Proof
end

