-- ==== Sys2Proof/Laws/PerInstr.lean ====
section
/-! SUPPORT. A fact of every instruction as syntax, one lemma for each constructor: how many bytes a well-formed command is on
the port (`30_encoding.md` R57). -/

namespace Sys2Proof.Laws.TransactionLength

/-- 8 bytes for READ and DESTROY, 8 + LEN for CONSTRUCT (R57). -/
def Statement (i : Instr) : Prop :=
  i.WF → (encode i).length = 8 + match i with
    | .read _ _ => 0
    | .construct len _ => len
    | .destroy => 0

theorem read (pos width : Nat) : Statement (.read pos width) := fun _ => rfl

theorem construct (len : Nat) (payload : List Byte) : Statement (.construct len payload) := by
  intro h
  simp only [Instr.WF, Instr.wellFormed, Bool.and_eq_true, decide_eq_true_eq] at h
  simp [encode, length_wordBytes, payloadOf, h.2]

theorem destroy : Statement .destroy := fun _ => rfl

end Sys2Proof.Laws.TransactionLength
end

