-- ==== Sys2Proof/Laws/Response.lean ====
section
/-! SUPPORT. The fields of a response word, read back from it (`30_encoding.md` R58, R59). -/

namespace Sys2Proof.Machine

theorem toNat_responseWord (st : Status) (d : BitVec 48) :
    (responseWord st d).toNat = st.code.toNat * 2 ^ 61 + d.toNat := by
  refine (toNat_append_eq (st.code ++ 0#13) d).trans ?_
  rw [toNat_append_eq]
  simp only [BitVec.toNat_ofNat]
  omega

theorem statusField_responseWord (st : Status) (d : BitVec 48) : statusField (responseWord st d) = st.code := by
  apply BitVec.eq_of_toNat_eq
  have := d.isLt; have := st.code.isLt
  rw [statusField, toNat_extractLsb_eq, toNat_responseWord]
  omega

theorem responseReserved_responseWord (st : Status) (d : BitVec 48) : responseReserved (responseWord st d) = 0 := by
  apply BitVec.eq_of_toNat_eq
  have := d.isLt
  rw [responseReserved, toNat_extractLsb_eq, toNat_responseWord]
  show _ = 0
  omega

theorem dataField_responseWord (st : Status) (d : BitVec 48) : dataField (responseWord st d) = d := by
  apply BitVec.eq_of_toNat_eq
  have := d.isLt
  rw [dataField, toNat_extractLsb_eq, toNat_responseWord]
  omega

theorem toNat_resultField_responseWord (st : Status) (d : BitVec 48) :
    (resultField (responseWord st d)).toNat = d.toNat % 2 ^ 32 := by
  have := d.isLt
  rw [resultField, toNat_extractLsb_eq, toNat_responseWord]
  omega

theorem ofCode_code (st : Status) : Status.ofCode st.code = some st := by cases st <;> rfl

theorem code_ne_seven (st : Status) : st.code ≠ 7 := by cases st <;> decide

theorem code_eq_zero {st : Status} : st.code = 0 ↔ st = .ok := by cases st <;> decide

end Sys2Proof.Machine
end

