-- ==== Sys2Proof/Laws/Step.lean ====
section
/-! SUPPORT. What a step can do, said once: reset alone, one transaction, or the race of the two (R120). -/

namespace Sys2Proof.Machine

theorem step_of_no_reset {s : State} (h : s.resetLine = []) : step s = serve s := by
  unfold step; rw [h]; rfl

theorem step_of_event {s : State} {e : ResetEvent} {line : List ResetEvent} (h : s.resetLine = e :: line) :
    step s = stepUnder e (s.setResetLine line) := by
  unfold step; rw [h]

theorem serve_of_ready {s : State} {t : Transaction} {rest : List Byte} (h : decode s.inbox = .ready t rest) :
    serve s = runTransaction t (s.setInbox rest) := by
  unfold serve; rw [h]

/-- The port is served only where a whole transaction is there. -/
theorem serve_eq_next {s t : State} (h : serve s = .next t) :
    ∃ tr rest, decode s.inbox = .ready tr rest ∧ runTransaction tr (s.setInbox rest) = .next t := by
  unfold serve at h
  split at h
  · cases h
  · cases h
  · cases h
  · exact ⟨_, _, ‹_›, h⟩

/-- The ways a step answers a next state: it serves a transaction, it resets, it does one then the other, or it resets and
drops what was on its way. -/
theorem step_cases {s t : State} (h : step s = .next t) :
    ∃ line, (s.resetLine = line ∨ ∃ e, s.resetLine = e :: line) ∧
      ((∃ tr rest, decode s.inbox = .ready tr rest ∧ (s.resetLine = [] ∨ s.resetLine = .quiet :: line) ∧
          runTransaction tr ((s.setResetLine line).setInbox rest) = .next t) ∨
       (s.resetLine = .betweenTransactions :: line ∧ t = applyReset (s.setResetLine line)) ∨
       (s.resetLine = .duringTransaction :: line ∧ ∃ tr rest u, decode s.inbox = .ready tr rest ∧
          runTransaction tr ((s.setResetLine line).draw.setInbox rest) = .next u ∧ t = applyReset u) ∨
       (s.resetLine = .duringTransaction :: line ∧ ∃ rest,
          (t = applyReset ((s.setResetLine line).draw.setInbox rest) ∨ t = applyReset ((s.setResetLine line).setInbox rest)))) := by
  match hl : s.resetLine with
  | [] =>
    rw [step_of_no_reset hl] at h
    obtain ⟨tr, rest, hd, hr⟩ := serve_eq_next h
    have hs : s.setResetLine [] = s := by cases s; cases hl; rfl
    exact ⟨[], .inl rfl, .inl ⟨tr, rest, hd, .inl rfl, by rw [hs]; exact hr⟩⟩
  | .quiet :: line =>
    rw [step_of_event hl] at h
    obtain ⟨tr, rest, hd, hr⟩ := serve_eq_next h
    exact ⟨line, .inr ⟨_, rfl⟩, .inl ⟨tr, rest, hd, .inr rfl, hr⟩⟩
  | .betweenTransactions :: line =>
    rw [step_of_event hl] at h
    cases h
    exact ⟨line, .inr ⟨_, rfl⟩, .inr (.inl ⟨rfl, rfl⟩)⟩
  | .duringTransaction :: line =>
    rw [step_of_event hl] at h
    refine ⟨line, .inr ⟨_, rfl⟩, .inr (.inr ?_)⟩
    simp only [stepUnder, resetRace] at h
    split at h
    · rename_i tr rest hd
      split at h
      · split at h
        · rename_i u hu
          cases h
          exact .inl ⟨rfl, tr, rest, u, hd, hu, rfl⟩
        · cases h
        · cases h
      · cases h
        exact .inr ⟨rfl, rest, .inl rfl⟩
    · cases h
      exact .inr ⟨rfl, [], .inr rfl⟩

theorem run_zero (s : State) : core.run 0 s = .next s := rfl

theorem run_succ_of_next {k : Nat} {s t : State} (h : step s = .next t) : core.run (k + 1) s = core.run k t := by
  have h' : core.step s = .next t := h
  simp only [Host.Core.run, h']

theorem run_succ_of_fault {k : Nat} {s : State} {r : Fault} (h : step s = .fault r) : core.run (k + 1) s = .fault r := by
  have h' : core.step s = .fault r := h
  simp only [Host.Core.run, h']

theorem run_succ_of_refused {k : Nat} {s : State} {r : Refusal} (h : step s = .refused r) :
    core.run (k + 1) s = .refused r := by
  have h' : core.step s = .refused r := h
  simp only [Host.Core.run, h']

end Sys2Proof.Machine
end

