-- ==== Sys2Proof/Tests/Slice0.lean ====
section
/-! SUPPORT. The model's own tests: the checks of WellFormed, words written out from the spec's encodings, one step or one command on
a small state with the value the spec's test vectors give, and, for every statement with hypotheses, a state and operands that
meet them all. -/

namespace Sys2Proof.Tests

open Sys2Proof.Machine

/-! ## WellFormed refuses (R63) -/

theorem test_wellFormed_accepts_illegal_widths : (Instr.read 0 0).WF ∧ (Instr.read 0 63).WF := by decide

theorem test_wellFormed_refuses_pos : ¬ (Instr.read (2 ^ 48) 8).WF := by decide

theorem test_wellFormed_refuses_width : ¬ (Instr.read 0 64).WF := by decide

theorem test_wellFormed_refuses_len : ¬ (Instr.construct (2 ^ 48) []).WF := by decide

theorem test_wellFormed_refuses_payload_length : ¬ (Instr.construct 2 [0xB2]).WF := by decide

/-! ## Words written out from the spec's encodings -/

/-- READ 7, 32: `00 00000000 WWWWWW P...P` (R51). -/
theorem test_decode_read :
    decode [0b00000000, 0b00100000, 0, 0, 0, 0, 0, 0b00000111] = .ready (.command (.read 7 32)) [] := by decide

/-- CONSTRUCT 2, [0xB2, 0x5A]: `01 00000000000000 L...L` (R52), then its payload; the next byte stays on the port (R57). -/
theorem test_decode_construct :
    decode [0b01000000, 0, 0, 0, 0, 0, 0, 0b00000010, 0xB2, 0x5A, 0x99] =
      .ready (.command (.construct 2 [0xB2, 0x5A])) [0x99] := by decide

/-- DESTROY: `0x8000000000000000` (R53). -/
theorem test_decode_destroy : decode [0b10000000, 0, 0, 0, 0, 0, 0, 0] = .ready (.command .destroy) [] := by decide

/-- L11: an illegal CONSTRUCT word still takes its LEN payload bytes (R56). -/
theorem test_decode_illegal_construct :
    decode [0x40, 0x04, 0, 0, 0, 0, 0, 0x02, 0x01, 0x02, 0x99] =
      .ready (.illegal .constructReservedField) [0x99] := by decide

/-- A word goes out most significant byte first (R36). -/
theorem test_wordBytes : wordBytes 0x0123456789ABCDEF = [0x01, 0x23, 0x45, 0x67, 0x89, 0xAB, 0xCD, 0xEF] := by decide

theorem test_table_words :
    decodeTableWord 64 0x0005000000000006 = some (.read 6 5) ∧ decodeTableWord 64 0x4000000000000000 = some (.construct 0 []) ∧
      decodeTableWord 64 0x4000000000000001 = some (.construct 1 [0]) ∧
      decodeTableWord 64 0x8000000000000000 = some .destroy ∧ decodeTableWord 64 0xC000000000000000 = none := by decide

/-! ## One step, one command -/

/-- The next state of an outcome, if there is one. -/
def after : Host.Outcome State Fault Refusal → Option State
  | .next s => some s
  | .fault _ => none
  | .refused _ => none

/-- A LOADED block with the buffer of `95_test_vectors.md` section 2. -/
def vectors : State :=
  { State.resetOf 16 with
    v := .loaded, len := 6, buf := [(0, 0xB2), (1, 0x5A), (2, 0xC3), (3, 0x0F), (4, 0xF0), (5, 0x81)] }

/-- The same buffer with bytes of a port. -/
def port (bytes : List Byte) : State := { vectors with inbox := bytes }

/-- V6 and V14: five bytes and three bytes, trailing bits discarded. -/
theorem test_read_spans :
    (after (exec (.read 7 32) vectors)).map State.outbox = some [0x000000002D6187F8] ∧
      (after (exec (.read 23 10) vectors)).map State.outbox = some [0x000000000000021F] := by decide

/-- V23 and V29: the sum does not wrap, and the width check comes first. -/
theorem test_read_errors :
    (after (exec (.read 281474976710655 32) vectors)).map State.outbox = some [0x2000000000000000] ∧
      (after (exec (.read 60 40) vectors)).map State.outbox = some [0x4000000000000000] := by decide

/-- L1, from reset. -/
theorem test_construct :
    (after (exec (.construct 2 [0xB2, 0x5A]) (State.resetOf 16))).map (fun t => (t.v, t.len, t.buf, t.outbox)) =
      some (.loaded, 2, [(0, 0xB2), (1, 0x5A)], [0x0000000000000000]) := by decide

/-- L4 and L5 at a small LMAX: too long, and loaded already; nothing else changes. -/
theorem test_construct_errors :
    after (exec (.construct 3 [1, 2, 3]) (State.resetOf 2)) = some ((State.resetOf 2).push 0xA000000000000000) ∧
      after (exec (.construct 1 [0xAA]) vectors) = some (vectors.push 0x8000000000000000) := by decide

/-- L6 and L7. -/
theorem test_destroy :
    after (exec .destroy vectors) = some ((vectors.setV .empty).push 0x0000000000000000) ∧
      after (exec .destroy (State.resetOf 16)) = some ((State.resetOf 16).push 0x6000000000000000) := by decide

/-- L11: the payload of an illegal CONSTRUCT word is taken and discarded. -/
theorem test_step_illegal :
    after (step (port [0x40, 0x04, 0, 0, 0, 0, 0, 0x02, 0x01, 0x02, 0x99])) =
      some ((port [0x99]).push 0xC000000000000000) := by decide

/-- A table word runs as the next step from reset: V34, and L2. -/
theorem test_step_table_word :
    (after (step (State.reset.withFetchWord 64 0x0008000000000000))).map State.outbox = some [0x6000000000000000] ∧
      (after (step (State.reset.withFetchWord 64 0x4000000000000000))).map State.v = some .loaded := by decide

/-- Reset between transactions (R119). -/
theorem test_step_reset :
    (after (step (vectors.setResetLine [.betweenTransactions]))).map (fun t => (t.v, t.outbox)) = some (.empty, []) := by decide

/-- The end of a scan pass, if it has one: position and checksum. -/
def passEnd : Host.Outcome (State × HostPass) Fault Refusal → Option HostPass
  | .next (_, p) => some p
  | .fault _ => none
  | .refused _ => none

/-- Twelve bytes of 0xFF. -/
def ones : State := { State.resetOf 16 with v := .loaded, len := 12, buf := (List.range 12).map fun k => (k, 0xFF) }

/-- P3: the checksum wraps; and no READ where the width exceeds TOTAL (R100). -/
theorem test_scan :
    passEnd (scan 32 96 ones) = some { pos := 96, sum := 0xFFFFFFFD } ∧
      passEnd (scan 25 24 ones) = some { pos := 0, sum := 0 } := by decide

/-- R63's syntax, with a comment, a blank line and the three number forms; `SCAN 8` over two bytes is two READs (R94). -/
theorem test_assembler_text :
    assembleText 16 "READ 6, 0b101 ; a field\n\nCONSTRUCT 2, [0xB2, 90]\nSCAN 8".toList =
      some (wordBytes 0x0005000000000006 ++ (wordBytes 0x4000000000000002 ++ [0xB2, 0x5A]) ++
        wordBytes 0x0008000000000000 ++ wordBytes 0x0008000000000008) := by decide

/-- R63: `.cmd` with OP = `01` needs its `.bytes` line of exactly LEN bytes (P4, step 8). -/
theorem test_assembler_raw :
    assemble 16 [.cmd 0x4004000000000001, .bytes [0x55]] = some (wordBytes 0x4004000000000001 ++ [0x55]) ∧
      assemble 16 [.cmd 0x4004000000000001] = none ∧ assemble 16 [.cmd 0x4004000000000001, .bytes []] = none := by decide

/-- R83 and R92: the CONSTRUCT above LMAX = 2 loads nothing, so SCAN's TOTAL is that of the one after it; and with the first alone
there is no buffer to scan. -/
theorem test_assembler_scan_after_capacity_error :
    assemble 2 [.construct 3 [1, 2, 3], .construct 1 [0xAA], .scan 8] =
        some ((wordBytes 0x4000000000000003 ++ [1, 2, 3]) ++ (wordBytes 0x4000000000000001 ++ [0xAA]) ++
          wordBytes 0x0008000000000000) ∧
      assemble 2 [.construct 3 [1, 2, 3], .scan 8] = none := by decide

/-- R88: a second CONSTRUCT while LOADED changes no length, an illegal CONSTRUCT word none either; after DESTROY SCAN is refused. -/
theorem test_assembler_known_length :
    asmKnownAfter 2 none [.construct 1 [0xAA], .construct 2 [1, 2], .cmd 0x4004000000000002, .bytes [1, 2]] = some 1 ∧
      assemble 2 [.construct 1 [0xAA], .destroy, .scan 8] = none := by decide

/-! ## Witnesses: for each statement with hypotheses, what meets them -/

/-- The invariant of a state that has answered nothing yet, part by part. -/
theorem inv_of_no_responses {s : State} (hl : 1 ≤ s.lmax ∧ s.lmax ≤ 2 ^ 45) (hw : s.buf.WF) (ha : ∀ c ∈ s.buf, c.1 < s.lmax)
    (hv : s.v = .loaded → s.len.toNat ≤ s.lmax) (ho : s.outbox = []) : s.Inv :=
  ⟨hl, hw, ha, hv, fun rsp h => by rw [ho] at h; exact absurd h (by simp)⟩

theorem inv_reset : (State.resetOf 16).Inv ∧ (State.resetOf 2).Inv :=
  ⟨inv_of_no_responses (by decide +kernel) (by decide) (by decide) (by decide) rfl,
    inv_of_no_responses (by decide +kernel) (by decide) (by decide) (by decide) rfl⟩

theorem inv_port (bytes : List Byte) : (port bytes).Inv :=
  inv_of_no_responses (by change 1 ≤ 16 ∧ 16 ≤ 2 ^ 45; norm_num) (by change vectors.buf.WF; decide)
    (by change ∀ c ∈ vectors.buf, c.1 < 16; decide) (by change vectors.v = .loaded → vectors.len.toNat ≤ 16; decide) rfl

/-- `vectors` on the port's READ 6, 5, with a byte of the next transaction behind it. -/
def reading : State := port (wordBytes 0x0005000000000006 ++ [0x80])

theorem witness_ResetMeetsInvariant : (1 ≤ 1 ∧ 1 ≤ 2 ^ 45) ∧ 1 ≤ 2 ^ 45 ∧ 2 ^ 45 ≤ 2 ^ 45 := by decide

theorem witness_StepKeepsInvariant : reading.Inv ∧ (after (step reading)).isSome :=
  ⟨inv_port _, by decide⟩

/-- LOADED states that differ beyond LEN, and EMPTY states that differ in LEN and BUF. -/
theorem witness_HiddenBytesAreUnobservable :
    (vectors.Inv ∧ (vectors.setBuf (vectors.buf ++ [(9, 1)])).Inv ∧
      LookAlike vectors (vectors.setBuf (vectors.buf ++ [(9, 1)]))) ∧
    ((State.resetOf 16).Inv ∧ (vectors.setV .empty).Inv ∧ LookAlike (State.resetOf 16) (vectors.setV .empty)) := by
  refine ⟨⟨inv_port [], inv_of_no_responses (by decide +kernel) (by decide) (by decide) (by decide) rfl, rfl, rfl, rfl, rfl, rfl, rfl,
    fun _ => ⟨rfl, by decide⟩⟩, inv_reset.1, inv_of_no_responses (by decide +kernel) (by decide) (by decide) (by decide) rfl, rfl, rfl, rfl, rfl, rfl,
    rfl, fun h => nomatch h⟩

theorem witness_LoadedBufferIsThePayload :
    ∃ u t : State, ((State.resetOf 16).setInbox (wordBytes 0x0008000000000000)).v = .empty ∧
      ((State.resetOf 16).setInbox (wordBytes 0x0008000000000000)).Inv ∧ (Instr.construct 1 [0xAA]).WF ∧
      exec (.construct 1 [0xAA]) ((State.resetOf 16).setInbox (wordBytes 0x0008000000000000)) = .next u ∧ u.v = .loaded ∧
      loadedThroughout 1 u ∧ core.run 1 u = .next t :=
  ⟨_, _, rfl, inv_of_no_responses (by decide +kernel) (by decide) (by decide) (by decide) rfl, by decide, rfl, rfl, by decide, rfl⟩

/-- Both clauses: a CONSTRUCT that loads, a DESTROY that empties. -/
theorem witness_OnlyLifecycleEventsChangeV :
    (State.reset.v = .empty ∧ (after (step (State.reset.withFetchWord 64 0x4000000000000000))).map State.v = some .loaded) ∧
      (vectors.v = .loaded ∧ (after (step (vectors.withFetchWord 64 0x8000000000000000))).map State.v = some .empty) := by decide

theorem witness_LoadedStepsKeepBuffer : reading.v = .loaded ∧ (after (step reading)).map State.v = some .loaded := by decide

/-- A READ word, and a CONSTRUCT word with reserved bits set and its payload. -/
theorem witness_EveryTransactionIsAnsweredOnce :
    (reading.resetLine = [] ∧ reading.inbox = wordBytes 0x0005000000000006 ++ [] ++ [0x80] ∧
      ([] : List Byte).length = (if (0x0005000000000006#64).extractLsb 63 62 = 0b01#2 then ((0x0005000000000006#64).extractLsb 47 0).toNat else 0)) ∧
    (port (wordBytes 0x4004000000000001 ++ [0x55])).inbox = wordBytes 0x4004000000000001 ++ [0x55] ++ [] ∧
      [0x55#8].length =
        (if (0x4004000000000001#64).extractLsb 63 62 = 0b01#2 then ((0x4004000000000001#64).extractLsb 47 0).toNat else 0) := by
  decide

theorem witness_StepRunsTheDecodedCommand :
    decode reading.inbox = .ready (.command (.read 6 5)) [0x80] ∧ reading.resetLine = [] ∧
      (reading.setResetLine [.quiet]).resetLine = .quiet :: [] := by decide

/-- The three clauses, at 0 bytes, 1 and 7 bytes, and LEN = 2 with 1 byte of payload. -/
theorem witness_UnframedPortStops :
    vectors.inbox = [] ∧ 0 < (port [0x40]).inbox.length ∧ (port [0x40, 0, 0, 0, 0, 0, 0]).inbox.length < 8 ∧
      (0x4000000000000002#64).extractLsb 63 62 = 0b01#2 ∧ [0x55#8].length < ((0x4000000000000002#64).extractLsb 47 0).toNat ∧
      step vectors = .fault .portIdle ∧ step (port [0x40]) = .fault .shortCommandWord ∧
      step (port (wordBytes 0x4000000000000002 ++ [0x55])) = .fault .shortPayload := by
  refine ⟨by decide, by decide, by decide, by decide, by decide, rfl, rfl, rfl⟩

/-- Each event that is not quiet: between transactions, and during one, over a whole transaction, an idle port, a short command
word and a short payload. -/
theorem witness_ResetEmptiesTheBlock :
    ((vectors.setResetLine [.betweenTransactions, .quiet]).resetLine = .betweenTransactions :: [.quiet] ∧
        ResetEvent.betweenTransactions ≠ .quiet) ∧
      (∀ bytes ∈ [wordBytes 0x0005000000000006, [], [0x40], wordBytes 0x4000000000000002 ++ [0x55]],
        ((port bytes).setResetLine [.duringTransaction]).resetLine = .duringTransaction :: []) ∧
      ResetEvent.duringTransaction ≠ .quiet := by decide

/-- The block is EMPTY after a reset during a transaction that is not whole (R26, R119). -/
theorem test_step_reset_short :
    ∀ bytes ∈ [[], [0x40], wordBytes 0x4000000000000002 ++ [0x55]],
      (after (step ((port bytes).setResetLine [.duringTransaction]))).map State.v = some .empty := by decide

/-- A transaction under way, and another one behind it. -/
theorem witness_ResetDuringTransaction :
    ((port (wordBytes 0x0005000000000006 ++ wordBytes 0x8000000000000000)).setResetLine [.duringTransaction]).resetLine =
        .duringTransaction :: [] ∧
      decode (wordBytes 0x0005000000000006 ++ wordBytes 0x8000000000000000) =
        .ready (.command (.read 6 5)) (wordBytes 0x8000000000000000) ∧
      decode (wordBytes 0x8000000000000000) = .ready (.command .destroy) [] := by decide

/-- The least and the greatest width, at the end of the buffer: `POS + WIDTH = TOTAL`. -/
theorem witness_ReadReturnsTheBitSum :
    vectors.v = .loaded ∧ (1 ≤ 1 ∧ 1 ≤ 32 ∧ 47 + 1 ≤ 8 * vectors.len.toNat) ∧ (1 ≤ 32 ∧ 32 ≤ 32 ∧ 16 + 32 ≤ 8 * vectors.len.toNat) := by decide

/-- Five bytes at o = 7, and one byte. -/
theorem witness_ReadTouchesOnlyTheBuffer :
    (1 ≤ 32 ∧ 32 ≤ 32 ∧ 7 + 32 ≤ 8 * vectors.len.toNat) ∧ spanBytes 7 32 = 5 ∧ 1 ≤ 8 ∧ 8 ≤ 32 ∧ 40 + 8 ≤ 8 * vectors.len.toNat ∧ spanBytes 40 8 = 1 := by decide

theorem witness_ReadChecksTheWidth : vectors.v = .loaded ∧ (0 = 0 ∨ 32 < 0) ∧ (33 = 0 ∨ 32 < 33) := by decide

/-- Where the clauses meet: 48 bits fit, 49 do not. -/
theorem witness_ReadChecksTheRange :
    vectors.v = .loaded ∧ 1 ≤ 4 ∧ 4 ≤ 32 ∧ 8 * vectors.len.toNat < 45 + 4 ∧ 44 + 4 ≤ 8 * vectors.len.toNat := by decide

theorem witness_ReadIsPure :
    reading.v = vectors.v ∧ reading.len = vectors.len ∧ reading.buf = vectors.buf ∧ reading ≠ vectors := by decide

/-- Two buffers of different length that agree on bytes 0 and 1 only. -/
theorem witness_ReadDependsOnItsSpanOnly :
    vectors.v = .loaded ∧ ({ vectors with len := 2, buf := [(0, 0xB2), (1, 0x5A)] } : State).v = .loaded ∧
      1 ≤ 5 ∧ 5 ≤ 32 ∧ 6 + 5 ≤ 8 * vectors.len.toNat ∧ 6 + 5 ≤ 8 * (2#48).toNat ∧
      ∀ j < spanBytes 6 5, vectors.buf.readByte (startByte 6 + j) =
        Memory.readByte [(0, 0xB2), (1, 0x5A)] (startByte 6 + j) := by decide

/-- V18 = V1 and V19; and the widest sum, at the end of the buffer. -/
theorem witness_WideReadIsItsPartsConcatenated :
    vectors.v = .loaded ∧ (1 ≤ 8 ∧ 1 ≤ 5 ∧ 8 + 5 ≤ 32 ∧ 0 + 8 + 5 ≤ 8 * vectors.len.toNat) ∧
      1 ≤ 31 ∧ 1 ≤ 1 ∧ 31 + 1 ≤ 32 ∧ 16 + 31 + 1 ≤ 8 * vectors.len.toNat := by decide

theorem witness_OneBitReadsFollowTheBitOrder : vectors.v = .loaded ∧ 0 < 8 * vectors.len.toNat ∧ 47 < 8 * vectors.len.toNat := by
  decide

theorem witness_ByteAlignedReadIsBigEndian :
    vectors.v = .loaded ∧ (1 ≤ 4 ∧ 4 ≤ 4 ∧ 2 + 4 ≤ vectors.len.toNat) ∧ 1 ≤ 1 ∧ 1 ≤ 4 ∧ 5 + 1 ≤ vectors.len.toNat := by decide

/-- L = LMAX and L = 0. -/
theorem witness_ConstructLoadsThePayload :
    (State.resetOf 2).buf.WF ∧ (Instr.construct 2 [0xB2, 0x5A]).WF ∧ (State.resetOf 2).v = .empty ∧ 2 ≤ (State.resetOf 2).lmax ∧
      (Instr.construct 0 []).WF := by decide

theorem witness_ConstructChecksTheCapacity : (State.resetOf 2).v = .empty ∧ (State.resetOf 2).lmax < 3 := by decide

theorem witness_LifecycleErrorsAreAnswered : (State.resetOf 2).v = .empty ∧ vectors.v = .loaded := by decide

theorem witness_DestroyEmptiesTheBlock : vectors.v = .loaded ∧ (Instr.construct 1 [0xAA]).WF ∧ 1 ≤ vectors.lmax := by decide

/-- A state for each row of the table. -/
theorem witness_LifecycleTransitions :
    ((Instr.construct 2 [0xB2, 0x5A]).WF ∧ (State.resetOf 2).v = .empty ∧ 2 ≤ (State.resetOf 2).lmax) ∧
      ((Instr.construct 3 [1, 2, 3]).WF ∧ (State.resetOf 2).lmax < 3) ∧ vectors.v = .loaded ∧
      (decode (port (wordBytes 0xFFFFFFFFFFFFFFFF)).inbox = .ready (.illegal .reservedOpcode) [] ∧
        (port (wordBytes 0xFFFFFFFFFFFFFFFF)).resetLine = []) ∧
      (vectors.setResetLine [.betweenTransactions]).resetLine = .betweenTransactions :: [] := by decide

/-- One word for each of the four ways to be illegal (L8, V36, L11, L10). -/
theorem witness_IllegalWordsAreAnswered :
    (0xC000000000000000#64).extractLsb 63 62 = 0b11#2 ∧
      ((0x0040000000000008#64).extractLsb 63 62 = 0b00#2 ∧ (0x0040000000000008#64).extractLsb 61 54 ≠ 0#8) ∧
      ((0x4004000000000002#64).extractLsb 63 62 = 0b01#2 ∧ (0x4004000000000002#64).extractLsb 61 48 ≠ 0#14 ∧
        [0x01#8, 0x02#8].length = ((0x4004000000000002#64).extractLsb 47 0).toNat ∧
        (port (wordBytes 0x4004000000000002 ++ [0x01, 0x02])).inbox = wordBytes 0x4004000000000002 ++ [0x01, 0x02] ++ []) ∧
      ((0x8000000000000001#64).extractLsb 63 62 = 0b10#2 ∧ (0x8000000000000001#64).extractLsb 61 0 ≠ 0#62) := by decide

theorem witness_ResponsesHaveTheirFormat :
    (after (runTransaction (.command (.read 6 5)) vectors)).isSome ∧ (after (runTransaction (.command .destroy) vectors)).isSome ∧
      (after (runTransaction (.command (.construct 1 [0xAA])) vectors)).isSome := by decide

theorem witness_ErrorsChangeNothing :
    (after (runTransaction (.command (.read 48 1)) vectors)).map State.outbox = some (vectors.outbox ++ [0x2000000000000000]) ∧
      (0x2000000000000000#64).extractLsb 63 61 ≠ 0#3 := by decide

/-- One command of each constructor, at the ends of its fields. -/
theorem witness_DecodeOfEncode :
    (Instr.read (2 ^ 48 - 1) 63).WF ∧ (Instr.construct 2 [0xB2, 0x5A]).WF ∧ Instr.destroy.WF := by decide

theorem witness_EncodeOfDecode :
    ([] : List Byte).length = payloadLength 0x003FFFFFFFFFFFFF ∧
      decodeWord 0x003FFFFFFFFFFFFF [] = .command (.read (2 ^ 48 - 1) 63) := by decide

/-- A word for each clause. -/
theorem witness_MasksAndFieldsOfCommandWords :
    0x003FFFFFFFFFFFFF#64 &&& 0xFFC0000000000000#64 = 0x0000000000000000#64 ∧
      0x4000FFFFFFFFFFFF#64 &&& 0xFFFF000000000000#64 = 0x4000000000000000#64 ∧
      0x8000000000000000#64 &&& 0xFFFFFFFFFFFFFFFF#64 = 0x8000000000000000#64 ∧
      (0x8000000000000001#64 &&& 0xFFC0000000000000#64 ≠ 0x0000000000000000#64 ∧
        0x8000000000000001#64 &&& 0xFFFF000000000000#64 ≠ 0x4000000000000000#64 ∧
        0x8000000000000001#64 &&& 0xFFFFFFFFFFFFFFFF#64 ≠ 0x8000000000000000#64) := by decide

theorem witness_EncodingOfEachMnemonic : (Instr.read 7 32).WF ∧ (Instr.construct 1 [0xAA]).WF := by decide

/-- The conditions of each `if` at the ends of their ranges: what assembles, and what does not. -/
theorem witness_AssemblerRefusesWhatItMust :
    (0 < 2 ^ 48 ∧ 63 < 64 ∧ ¬ 2 ^ 48 < 2 ^ 48 ∧ ¬ 64 < 64) ∧
      ([0, 255].length = 2 ∧ ∀ b ∈ [0, 255], b ≤ 255) ∧ ¬ (∀ b ∈ [0, 256], b ≤ 255) ∧
      (2 ^ 64 - 1 < 2 ^ 64 ∧ (2 ^ 64 - 1) / 2 ^ 62 ≠ 1) ∧
      (0x4004000000000002 < 2 ^ 64 ∧ 0x4004000000000002 / 2 ^ 62 = 1 ∧ [0, 255].length = 0x4004000000000002 % 2 ^ 48) ∧
      assemble 16 [.construct 1 [256]] = none ∧ assemble 16 [.cmd 0x4000000000000001, .bytes [256]] = none ∧
      assemble 16 [.cmd (2 ^ 64)] = none := by decide

/-- A program whose length changes what the lines after it assemble to: CONSTRUCT, then SCAN. -/
theorem witness_AssembledLinesConcatenate :
    assembleFrom 2 none [.construct 1 [0xAA]] = some (wordBytes 0x4000000000000001 ++ [0xAA]) ∧
      assembleFrom 2 (asmKnownAfter 2 none [.construct 1 [0xAA]]) [.scan 8] = some (wordBytes 0x0008000000000000) ∧
      assembleFrom 2 none [.scan 8] = none := by decide

/-- R83's refused CONSTRUCT, one that loads, and one while LOADED, with a byte behind them on the port. -/
theorem witness_AssemblerKnowsTheLoadedLength :
    let lines : List AsmLine := [.construct 3 [1, 2, 3], .construct 1 [0xAA], .construct 2 [1, 2]]
    let bytes : List Byte := (wordBytes 0x4000000000000003 ++ [1, 2, 3]) ++ (wordBytes 0x4000000000000001 ++ [0xAA]) ++
      (wordBytes 0x4000000000000002 ++ [1, 2])
    let s : State := (State.resetOf 2).setInbox (bytes ++ [0x80])
    s.Inv ∧ s.resetLine = [] ∧ assembleFrom s.lmax (loadedLength s) lines = some bytes ∧ s.inbox = bytes ++ [0x80] :=
  ⟨inv_of_no_responses (by decide +kernel) (by decide) (by decide) (by decide) rfl, by decide⟩

/-- The same after a CONSTRUCT that fails for its capacity: the SCAN is over the one byte that is loaded. -/
theorem witness_AssembledScanReadsTheLoadedBuffer :
    let bytes : List Byte := (wordBytes 0x4000000000000003 ++ [1, 2, 3]) ++ (wordBytes 0x4000000000000001 ++ [0xAA]) ++
      wordBytes 0x0008000000000000
    let s : State := (State.resetOf 2).setInbox (bytes ++ [0x80])
    s.Inv ∧ s.resetLine = [] ∧
      assembleFrom s.lmax (loadedLength s) ([.construct 3 [1, 2, 3], .construct 1 [0xAA]] ++ [.scan 8]) = some bytes ∧
      s.inbox = bytes ++ [0x80] :=
  ⟨inv_of_no_responses (by decide +kernel) (by decide) (by decide) (by decide) rfl, by decide⟩

/-- Two READs, in one order, with a byte behind them, on a block with the V, LEN and BUF of `vectors`. -/
theorem witness_ReadsAnswerAlikeInEveryOrder :
    let u : State := port ([Instr.read 6 5, .read 0 0].flatMap encode ++ [0x80])
    (∀ i ∈ [Instr.read 6 5, Instr.read 0 0], i.WF ∧ ∃ p w, i = .read p w) ∧
      u.v = vectors.v ∧ u.len = vectors.len ∧ u.buf = vectors.buf ∧ u.resetLine = [] ∧
      u.inbox = [Instr.read 6 5, .read 0 0].flatMap encode ++ [0x80] := by
  refine ⟨fun i hi => ?_, rfl, rfl, rfl, rfl, rfl⟩
  rcases List.mem_cons.1 hi with rfl | hi
  · exact ⟨by decide, _, _, rfl⟩
  · rw [List.mem_singleton.1 hi]; exact ⟨by decide, _, _, rfl⟩

/-- Two threads over halves of the buffer, their turns mixed; the fifth turn is of no thread. -/
theorem witness_ConcurrentPassesAreIndependent :
    let ths : List ScanThread := [⟨8, 24, ⟨0, 0⟩⟩, ⟨12, 48, ⟨24, 0⟩⟩]
    (match interleave [0, 1, 1, 0, 7, 0] ths vectors with
      | .next (_, ths') => some ths'
      | .fault _ => none
      | .refused _ => none) = some [⟨8, 24, ⟨24, 0xB2 + 0x5A + 0xC3⟩⟩, ⟨12, 48, ⟨48, 0x0FF + 0x081⟩⟩] := by decide

theorem witness_ScanSumsThePass : vectors.v = .loaded ∧ 1 ≤ 1 ∧ 1 ≤ 32 ∧ 1 ≤ 32 ∧ 32 ≤ 32 := by decide

/-- Each clause: EMPTY; widths 0 and 33; a host that believes the buffer one byte longer; the precondition met. -/
theorem witness_ScanAbortsOnAnError :
    (1 ≤ 8 ∧ (State.resetOf 2).v = .empty) ∧ (0 ≤ 8 ∧ (0 = 0 ∨ 32 < 0)) ∧ (33 ≤ 48 ∧ (33 = 0 ∨ 32 < 33)) ∧
      (8 ≤ 56 ∧ vectors.v = .loaded ∧ 8 * vectors.len.toNat < 56 / 8 * 8) ∧ (13 ≤ 48 ∧ 48 = 8 * vectors.len.toNat) ∧
      (passEnd (scan 13 48 vectors)).isSome := by decide

theorem witness_ScanIsItsCommandSequence :
    (port ((scanReads 16 48).flatMap encode)).Inv ∧ vectors.v = .loaded ∧ 1 ≤ 16 ∧ 16 ≤ 32 ∧ vectors.resetLine = [] ∧
      (port ((scanReads 16 48).flatMap encode)).inbox = (scanReads 16 (8 * vectors.len.toNat)).flatMap encode ++ [] :=
  ⟨inv_port _, by decide⟩

theorem witness_ReadAfterConstructSeesThePayload :
    ((State.resetOf 2).Inv ∧ (Instr.construct 2 [0xB2, 0x5A]).WF ∧ (State.resetOf 2).v = .empty ∧ 2 ≤ (State.resetOf 2).lmax ∧
      (1 ≤ 5 ∧ 5 ≤ 32 ∧ 6 + 5 ≤ 8 * 2) ∧ (1 ≤ 1 ∧ 1 ≤ 32 ∧ 15 + 1 ≤ 8 * 2) ∧ (after (exec (.construct 2 [0xB2, 0x5A]) (State.resetOf 2))).isSome) ∧
      vectors.v = .loaded ∧ (after (exec .destroy vectors)).isSome :=
  ⟨⟨inv_reset.2, by decide⟩, by decide⟩

end Sys2Proof.Tests
end

section
/-! PROOF. READ, said once: what it computes, what it answers when its checks pass (`40_read.md` R72 to R74), and every way it
answers. -/

namespace Sys2Proof.Machine

theorem exec_read (pos width : Nat) (s : State) : exec (.read pos width) s = execRead pos width s := rfl

/-- The shift and the mask of R73 as a quotient and a remainder. -/
theorem extractField_eq_div_mod (acc pos width : Nat) :
    extractField acc pos width = acc / 2 ^ trailingBits pos width % 2 ^ width := by
  rw [extractField, Nat.and_two_pow_sub_one_eq_mod, Nat.shiftRight_eq_div_pow]

theorem extractField_lt (acc pos width : Nat) : extractField acc pos width < 2 ^ width := by
  rw [extractField_eq_div_mod]
  exact Nat.mod_lt _ (Nat.two_pow_pos width)

/-- The bytes of a bit range that ends inside the buffer lie in the buffer (R72). -/
theorem startByte_add_spanBytes_le {s : State} {pos width : Nat} (h : pos + width ≤ total s) :
    startByte pos + spanBytes pos width ≤ s.len.toNat := by
  rw [startByte, spanBytes_eq]
  unfold total at h
  omega

/-- A READ that passes the three checks. -/
theorem execRead_of_inRange {s : State} {pos width : Nat} (hv : s.v = .loaded) (hw : 1 ≤ width)
    (hmax : width ≤ Config.maxWidth) (hr : pos + width ≤ total s) :
    execRead pos width s =
      .next (s.push (responseWord .ok
        (zext48 (extractField (s.buf.readBig (startByte pos) (spanBytes pos width)) pos width)))) := by
  have hmem := memRead_eq_some.2 ⟨startByte_add_spanBytes_le hr, rfl⟩
  have hwidth : ¬ (width = 0 ∨ width > Config.maxWidth) := by omega
  rw [execRead, if_neg (by simp [hv]), if_neg hwidth, if_neg (by omega), hmem]
  rfl

/-- The two ways READ answers: an error with DATA 0, or a field of a legal width. -/
theorem execRead_cases {pos width : Nat} {s t : State} (h : execRead pos width s = .next t) :
    (∃ st, t = s.push (responseWord st 0)) ∨
    (width ≤ Config.maxWidth ∧ ∃ acc, t = s.push (responseWord .ok (zext48 (extractField acc pos width)))) := by
  unfold execRead at h
  split at h
  · cases h; exact .inl ⟨_, rfl⟩
  · split at h
    · cases h; exact .inl ⟨_, rfl⟩
    · split at h
      · cases h; exact .inl ⟨_, rfl⟩
      · split at h
        · cases h
        · cases h; exact .inr ⟨by omega, _, rfl⟩

end Sys2Proof.Machine
end

section
/-! PROOF. The bit order of one-bit READs (`00_scope.md` R9, `20_memory.md` R32). -/

namespace Sys2Proof.Machine

theorem spanBytes_one (pos : Nat) : spanBytes pos 1 = 1 := by
  rw [spanBytes_eq]
  omega

theorem trailingBits_one (pos : Nat) : trailingBits pos 1 = 7 - pos % 8 := by
  rw [trailingBits, spanBytes_one, startBit]
  omega

/-- The field of a one-bit READ is the buffer's bit. -/
theorem extractField_one (s : State) (i : Nat) :
    extractField (s.buf.readBig (startByte i) (spanBytes i 1)) i 1 = bufferBit s i := by
  rw [extractField, trailingBits_one, spanBytes_one, Memory.readBig_succ, Memory.readBig_zero]
  simp [bufferBit, startByte]

theorem bufferBit_eq_toNat_getLsbD (s : State) (i : Nat) :
    bufferBit s i = ((s.buf.readByte (i / 8)).getLsbD (7 - i % 8)).toNat := by
  rw [bufferBit, Nat.and_one_is_mod, Nat.shiftRight_eq_div_pow, ← Nat.toNat_testBit]
  rfl

theorem zext48_toNat (b : Bool) : zext48 b.toNat = if b then 1 else 0 := by cases b <;> rfl

end Sys2Proof.Machine

open Sys2Proof Sys2Proof.Machine

/-- Settles O19: a READ of width 1 extracts the buffer's bit, which is a bit of one byte. -/
theorem oneBitReadsFollowTheBitOrder : Obligations.OneBitReadsFollowTheBitOrder := by
  intro s i hv hi
  have hr : i + 1 ≤ total s := hi
  rw [exec_read, execRead_of_inRange hv le_rfl (by decide) hr, extractField_one, bufferBit_eq_toNat_getLsbD, zext48_toNat]
  rfl

end

section
/-! PROOF. The invariant (`State.Inv`) over a step: what the block appends is a legal response (`30_encoding.md` R58 to R60), and
each update and each transaction keeps the rest. -/

namespace Sys2Proof.Machine

theorem legalResponse_responseWord {st : Status} {d : BitVec 48} (hst : st ≠ .ok → d = 0) (hd : d.toNat < 2 ^ 32) :
    LegalResponse (responseWord st d) := by
  simp only [LegalResponse, responseReserved_responseWord, statusField_responseWord, dataField_responseWord]
  refine ⟨trivial, code_ne_seven st, fun h => hst fun hok => h (code_eq_zero.2 hok), ?_⟩
  apply BitVec.eq_of_toNat_eq
  rw [toNat_extractLsb_eq, Nat.div_eq_of_lt hd]
  rfl

theorem legalResponse_of_data_zero (st : Status) : LegalResponse (responseWord st 0) :=
  legalResponse_responseWord (fun _ => rfl) (by decide)

/-- R60: a READ's value, of at most 32 bits, leaves DATA[47:32] zero. -/
theorem legalResponse_extractField {width : Nat} (hw : width ≤ Config.maxWidth) (acc pos : Nat) :
    LegalResponse (responseWord .ok (zext48 (extractField acc pos width))) := by
  refine legalResponse_responseWord (fun h => absurd rfl h) ?_
  calc (zext48 (extractField acc pos width)).toNat
      ≤ extractField acc pos width := by rw [zext48, BitVec.toNat_ofNat]; exact Nat.mod_le _ _
    _ < 2 ^ width := extractField_lt acc pos width
    _ ≤ 2 ^ 32 := Nat.pow_le_pow_right (by decide) hw

namespace State.Inv

variable {s : State}

theorem setInbox (h : s.Inv) (bytes : List Byte) : (s.setInbox bytes).Inv := h

theorem setResetLine (h : s.Inv) (line : List ResetEvent) : (s.setResetLine line).Inv := h

theorem draw (h : s.Inv) : s.draw.Inv := h

theorem push (h : s.Inv) {rsp : Word} (hrsp : LegalResponse rsp) : (s.push rsp).Inv := by
  obtain ⟨hlmax, hwf, hin, hlen, hout⟩ := h
  refine ⟨hlmax, hwf, hin, hlen, fun r hr => ?_⟩
  rcases List.mem_append.1 hr with hr | hr
  · exact hout r hr
  · rw [List.mem_singleton.1 hr]; exact hrsp

theorem setV_empty (h : s.Inv) : (s.setV .empty).Inv := by
  obtain ⟨hlmax, hwf, hin, -, hout⟩ := h
  exact ⟨hlmax, hwf, hin, nofun, hout⟩

/-- The values reset gives V, LEN and BUF meet the invariant. -/
theorem applyReset (h : s.Inv) : (applyReset s).Inv := by
  obtain ⟨hlmax, -, -, -, hout⟩ := h
  exact ⟨hlmax, Memory.wf_nil, fun c hc => absurd hc List.not_mem_nil, nofun, hout⟩

/-- A payload that fits LMAX, loaded with its length (R82, R83). -/
theorem load (h : s.Inv) {len : Nat} {payload : List Byte} {u : State} (hp : payload.length = len) (hcap : len ≤ s.lmax)
    (hu : memWriteAll s 0 payload = some u) : ((u.setLen (BitVec.ofNat 48 len)).setV .loaded).Inv := by
  obtain ⟨hlmax, hwf, hin, -, hout⟩ := h
  obtain ⟨m, hm, hmin, hmwf⟩ := memWriteAll_spec s 0 payload (by omega)
  obtain rfl : s.setBuf m = u := Option.some.inj (hm.symm.trans hu)
  refine ⟨hlmax, (hmwf hwf).1, hmin hin, fun _ => ?_, hout⟩
  calc (BitVec.ofNat 48 len).toNat ≤ len := by rw [BitVec.toNat_ofNat]; exact Nat.mod_le _ _
    _ ≤ s.lmax := hcap

/-- One transaction keeps the invariant, a CONSTRUCT because it brings as many bytes as it names (R56). -/
theorem runTransaction (h : s.Inv) {tr : Transaction} {t : State}
    (hp : ∀ len payload, tr = .command (.construct len payload) → payload.length = len)
    (ht : runTransaction tr s = .next t) : t.Inv := by
  match tr, hp, ht with
  | .illegal _, _, ht =>
    cases ht
    exact h.push (legalResponse_of_data_zero _)
  | .command (.read pos _), _, ht =>
    rcases execRead_cases ht with ⟨st, rfl⟩ | ⟨hw, acc, rfl⟩
    · exact h.push (legalResponse_of_data_zero st)
    · exact h.push (legalResponse_extractField hw acc pos)
  | .command (.construct len payload), hp, ht =>
    rcases execConstruct_cases ht with ⟨-, rfl⟩ | ⟨-, -, rfl⟩ | ⟨-, hcap, u, hu, rfl⟩
    · exact h.push (legalResponse_of_data_zero _)
    · exact h.push (legalResponse_of_data_zero _)
    · exact (h.load (hp len payload rfl) hcap hu).push (legalResponse_of_data_zero _)
  | .command .destroy, _, ht =>
    rcases execDestroy_cases ht with ⟨-, rfl⟩ | ⟨-, rfl⟩
    · exact h.push (legalResponse_of_data_zero _)
    · exact h.setV_empty.push (legalResponse_of_data_zero _)

/-- A transaction that stood on the port keeps the invariant. -/
theorem runTransaction_of_decode (h : s.Inv) {bytes rest : List Byte} {tr : Transaction} {t : State}
    (hd : decode bytes = .ready tr rest) (ht : Machine.runTransaction tr s = .next t) : t.Inv :=
  h.runTransaction (fun _ _ htr => (payload_length_of_decode (htr ▸ hd)).1) ht

end State.Inv

end Sys2Proof.Machine

open Sys2Proof Sys2Proof.Machine

/-- Settles O2, by the ways a step answers: a transaction, a reset, the one and then the other, or a reset that drops bytes. -/
theorem stepKeepsInvariant : Obligations.StepKeepsInvariant := by
  intro s t hs hstep
  obtain ⟨line, -, hcases⟩ := step_cases hstep
  have hline : (s.setResetLine line).Inv := hs.setResetLine line
  rcases hcases with ⟨tr, rest, hd, -, hr⟩ | ⟨-, rfl⟩ | ⟨-, tr, rest, u, hd, hr, rfl⟩ | ⟨-, rest, rfl | rfl⟩
  · exact (hline.setInbox rest).runTransaction_of_decode hd hr
  · exact hline.applyReset
  · exact ((hline.draw.setInbox rest).runTransaction_of_decode hd hr).applyReset
  · exact (hline.draw.setInbox rest).applyReset
  · exact (hline.setInbox rest).applyReset

end

section
/-! PROOF. What a command answers, one equation for each of its checks (`40_read.md` R68, `41_lifecycle.md` R82), and what a
transaction can do, said once. -/

namespace Sys2Proof.Machine

theorem Lifecycle.ne_empty_iff {x : Lifecycle} : x ≠ .empty ↔ x = .loaded := by cases x <;> decide

theorem wf_construct_iff {len : Nat} {payload : List Byte} :
    (Instr.construct len payload).WF ↔ len < 2 ^ 48 ∧ payload.length = len := by
  simp only [Instr.WF, Instr.wellFormed, Bool.and_eq_true, decide_eq_true_eq]

theorem execRead_of_empty {pos width : Nat} {s : State} (hv : s.v = .empty) :
    execRead pos width s = .next (s.push (responseWord .notConstructed 0)) := by
  rw [execRead, if_pos hv, raise_eq]

theorem execRead_of_badWidth {pos width : Nat} {s : State} (hv : s.v = .loaded) (hw : width = 0 ∨ width > Config.maxWidth) :
    execRead pos width s = .next (s.push (responseWord .invalidWidth 0)) := by
  rw [execRead, if_neg (Lifecycle.ne_empty_iff.2 hv), if_pos hw, raise_eq]

theorem execRead_of_badRange {pos width : Nat} {s : State} (hv : s.v = .loaded) (hw : ¬ (width = 0 ∨ width > Config.maxWidth))
    (hr : pos + width > total s) : execRead pos width s = .next (s.push (responseWord .outOfRange 0)) := by
  rw [execRead, if_neg (Lifecycle.ne_empty_iff.2 hv), if_neg hw, if_pos hr, raise_eq]

theorem execConstruct_of_loaded {len : Nat} {payload : List Byte} {s : State} (hv : s.v = .loaded) :
    execConstruct len payload s = .next (s.push (responseWord .alreadyConstructed 0)) := by
  rw [execConstruct, if_pos hv, raise_eq]

theorem execConstruct_of_tooLong {len : Nat} {payload : List Byte} {s : State} (hv : s.v = .empty) (hcap : len > s.lmax) :
    execConstruct len payload s = .next (s.push (responseWord .capacityExceeded 0)) := by
  rw [execConstruct, if_neg (by simp [hv]), if_pos hcap, raise_eq]

/-- A CONSTRUCT that passes its checks loads a memory that reads as its payload from byte 0 (R82). -/
theorem execConstruct_of_fits {len : Nat} {payload : List Byte} {s : State} (hv : s.v = .empty) (hcap : len ≤ s.lmax)
    (hp : payload.length = len) :
    ∃ m : Memory, execConstruct len payload s =
        .next ((((s.setBuf m).setLen (BitVec.ofNat 48 len)).setV .loaded).push (responseWord .ok 0)) ∧
      (s.buf.WF → ∀ k (hk : k < payload.length), m.readByte k = payload[k]) := by
  obtain ⟨m, hm, -, hread⟩ := memWriteAll_spec s 0 payload (by omega)
  refine ⟨m, ?_, fun hwf k hk => ?_⟩
  · rw [execConstruct, if_neg (by simp [hv]), if_neg (by omega), hm]
    rfl
  · obtain ⟨-, -, hat⟩ := hread hwf
    rw [← hat k hk, Nat.zero_add]

theorem execDestroy_of_empty {s : State} (hv : s.v = .empty) :
    execDestroy s = .next (s.push (responseWord .notConstructed 0)) := by
  rw [execDestroy, if_pos hv, raise_eq]

theorem execDestroy_of_loaded {s : State} (hv : s.v = .loaded) :
    execDestroy s = .next ((s.setV .empty).push (responseWord .ok 0)) := by
  rw [execDestroy, if_neg (Lifecycle.ne_empty_iff.2 hv), respondOk_eq]

/-- A READ always answers: inside its checks it stays inside the buffer (R72). -/
theorem execRead_answers (pos width : Nat) (s : State) : ∃ t, execRead pos width s = .next t := by
  cases hv : s.v with
  | empty => exact ⟨_, execRead_of_empty hv⟩
  | loaded =>
    by_cases hw : width = 0 ∨ width > Config.maxWidth
    · exact ⟨_, execRead_of_badWidth hv hw⟩
    · by_cases hr : pos + width > total s
      · exact ⟨_, execRead_of_badRange hv hw hr⟩
      · exact ⟨_, execRead_of_inRange hv (by omega) (by omega) (by omega)⟩

/-- A CONSTRUCT with as many bytes as it names always answers. -/
theorem execConstruct_answers {len : Nat} {payload : List Byte} (hp : payload.length = len) (s : State) :
    ∃ t, execConstruct len payload s = .next t := by
  cases hv : s.v with
  | loaded => exact ⟨_, execConstruct_of_loaded hv⟩
  | empty =>
    by_cases hcap : len > s.lmax
    · exact ⟨_, execConstruct_of_tooLong hv hcap⟩
    · obtain ⟨m, hm, -⟩ := execConstruct_of_fits hv (by omega) hp
      exact ⟨_, hm⟩

theorem execDestroy_answers (s : State) : ∃ t, execDestroy s = .next t := by
  cases hv : s.v with
  | empty => exact ⟨_, execDestroy_of_empty hv⟩
  | loaded => exact ⟨_, execDestroy_of_loaded hv⟩

/-- A whole transaction taken off a port is answered, whatever the state. -/
theorem runTransaction_answers {bytes rest : List Byte} {tr : Transaction} (hd : decode bytes = .ready tr rest) (s : State) :
    ∃ t, runTransaction tr s = .next t := by
  match tr, hd with
  | .illegal _, _ => exact ⟨_, rfl⟩
  | .command (.read pos width), _ => exact execRead_answers pos width s
  | .command (.construct _ _), hd => exact execConstruct_answers (payload_length_of_decode hd).1 s
  | .command .destroy, _ => exact execDestroy_answers s

/-- The three things a transaction can do: answer and change nothing else, empty the block, or load it. -/
theorem runTransaction_cases {tr : Transaction} {s t : State} (h : runTransaction tr s = .next t) :
    (∃ rsp, t = s.push rsp) ∨
    (tr = .command .destroy ∧ s.v = .loaded ∧ t = (s.setV .empty).push (responseWord .ok 0)) ∨
    ∃ len payload m, tr = .command (.construct len payload) ∧ s.v = .empty ∧ len ≤ s.lmax ∧
      t = (((s.setBuf m).setLen (BitVec.ofNat 48 len)).setV .loaded).push (responseWord .ok 0) := by
  match tr, h with
  | .illegal _, h =>
    cases h
    exact .inl ⟨_, rfl⟩
  | .command (.read _ _), h =>
    obtain ⟨_, _, rfl, -⟩ := execRead_frame h
    exact .inl ⟨_, rfl⟩
  | .command (.construct len payload), h =>
    rcases execConstruct_cases h with ⟨-, rfl⟩ | ⟨-, -, rfl⟩ | ⟨hv, hcap, u, hu, rfl⟩
    · exact .inl ⟨_, rfl⟩
    · exact .inl ⟨_, rfl⟩
    · exact .inr (.inr ⟨len, payload, u.buf, rfl, hv, hcap, by rw [← memWriteAll_frame hu]⟩)
  | .command .destroy, h =>
    rcases execDestroy_cases h with ⟨-, rfl⟩ | ⟨hv, rfl⟩
    · exact .inl ⟨_, rfl⟩
    · exact .inr (.inl ⟨rfl, hv, rfl⟩)

/-- No transaction changes LMAX or the reset input. -/
theorem runTransaction_frame {tr : Transaction} {s t : State} (h : runTransaction tr s = .next t) :
    t.lmax = s.lmax ∧ t.resetLine = s.resetLine := by
  rcases runTransaction_cases h with ⟨_, rfl⟩ | ⟨-, -, rfl⟩ | ⟨_, _, _, -, -, -, rfl⟩ <;> exact ⟨rfl, rfl⟩

theorem resetRace_of_completes {s u : State} {tr : Transaction} {rest : List Byte} (hd : decode s.inbox = .ready tr rest)
    (hc : Config.resetRaceCompletes s.draws = true) (hr : runTransaction tr (s.draw.setInbox rest) = .next u) :
    resetRace s = .next (applyReset u) := by
  simp only [resetRace, hd, hc, hr, if_true]

theorem resetRace_of_cancels {s : State} {tr : Transaction} {rest : List Byte} (hd : decode s.inbox = .ready tr rest)
    (hc : Config.resetRaceCompletes s.draws = false) : resetRace s = .next (applyReset (s.draw.setInbox rest)) := by
  simp only [resetRace, hd, hc, Bool.false_eq_true, if_false]

theorem resetRace_of_notReady {s : State} (hd : ∀ tr rest, decode s.inbox ≠ .ready tr rest) :
    resetRace s = .next (applyReset (s.setInbox [])) := by
  unfold resetRace
  split
  · exact absurd ‹_› (hd _ _)
  · rfl

end Sys2Proof.Machine
end

section
/-! PROOF. V, LEN, BUF and LMAX over reset and over every step (`10_state.md` R18, R19, R21, R26). -/

namespace Sys2Proof.Machine

/-- A reset during a transaction always ends in reset, and leaves LMAX and the later events of the reset input alone. -/
theorem resetRace_answers (s : State) :
    ∃ u, resetRace s = .next (applyReset u) ∧ u.lmax = s.lmax ∧ u.resetLine = s.resetLine := by
  by_cases hd : ∃ tr rest, decode s.inbox = .ready tr rest
  · obtain ⟨tr, rest, hd⟩ := hd
    cases hc : Config.resetRaceCompletes s.draws with
    | true =>
      obtain ⟨u, hu⟩ := runTransaction_answers hd (s.draw.setInbox rest)
      exact ⟨u, resetRace_of_completes hd hc hu, runTransaction_frame (s := s.draw.setInbox rest) hu⟩
    | false => exact ⟨_, resetRace_of_cancels hd hc, rfl, rfl⟩
  · exact ⟨_, resetRace_of_notReady fun tr rest h => hd ⟨tr, rest, h⟩, rfl, rfl⟩

/-- A step either serves the transaction at the head of the port, or ends in reset. -/
theorem step_serves_or_resets {s t : State} (h : step s = .next t) :
    (∃ line tr rest, decode s.inbox = .ready tr rest ∧
      runTransaction tr ((s.setResetLine line).setInbox rest) = .next t) ∨
    (∃ e line, s.resetLine = e :: line ∧ e ≠ .quiet) ∧ t.v = .empty ∧ t.lmax = s.lmax := by
  obtain ⟨line, -, hcases⟩ := step_cases h
  rcases hcases with ⟨tr, rest, hd, -, hr⟩ | ⟨he, rfl⟩ | ⟨he, tr, rest, u, -, hr, rfl⟩ | ⟨he, rest, rfl | rfl⟩
  · exact .inl ⟨line, tr, rest, hd, hr⟩
  · exact .inr ⟨⟨_, _, he, nofun⟩, rfl, rfl⟩
  · exact .inr ⟨⟨_, _, he, nofun⟩, rfl, (runTransaction_frame hr).1⟩
  · exact .inr ⟨⟨_, _, he, nofun⟩, rfl, rfl⟩
  · exact .inr ⟨⟨_, _, he, nofun⟩, rfl, rfl⟩

end Sys2Proof.Machine

open Sys2Proof Sys2Proof.Machine

/-- Settles O1: reset holds no buffer byte and no response, and is not LOADED. -/
theorem resetMeetsInvariant : Obligations.ResetMeetsInvariant := by
  have hinv : ∀ lmax, 1 ≤ lmax → lmax ≤ 2 ^ 45 → (State.resetOf lmax).Inv := fun lmax hleast hgreatest =>
    ⟨⟨hleast, hgreatest⟩, Memory.wf_nil, fun _ hc => absurd hc List.not_mem_nil, nofun,
      fun _ hr => absurd hr List.not_mem_nil⟩
  exact ⟨fun lmax hleast hgreatest => ⟨hinv lmax hleast hgreatest, State.resetOf_v lmax⟩,
    hinv Config.resetLmax (by norm_num) (by norm_num)⟩

/-- Settles O10, by the kind of event: the race of R120 ends in reset whichever way it goes. -/
theorem resetEmptiesTheBlock : Obligations.ResetEmptiesTheBlock := by
  intro s e line hl he
  rw [step_of_event hl]
  cases e with
  | quiet => exact absurd rfl he
  | betweenTransactions => exact ⟨_, rfl, rfl, rfl, rfl, fun _ => ⟨rfl, rfl⟩⟩
  | duringTransaction =>
    obtain ⟨u, hu, hlmax, hline⟩ := resetRace_answers (s.setResetLine line)
    exact ⟨_, hu, rfl, hlmax, hline, nofun⟩

/-- Settles O6: of the steps, only those that change V write LEN or BUF. -/
theorem loadedStepsKeepBuffer : Obligations.LoadedStepsKeepBuffer := by
  intro s t hstep
  rcases step_serves_or_resets hstep with ⟨line, tr, rest, -, hr⟩ | ⟨-, ht, hlmax⟩
  · refine ⟨(runTransaction_frame hr).1, fun hs ht => ?_⟩
    rcases runTransaction_cases hr with ⟨_, rfl⟩ | ⟨-, -, rfl⟩ | ⟨_, _, _, -, hv, -, rfl⟩
    · exact ⟨rfl, rfl⟩
    · cases ht
    · cases hs.symm.trans hv
  · exact ⟨hlmax, fun _ ht' => nomatch ht.symm.trans ht'⟩

/-- Settles O5: a served transaction changes V only as `runTransaction_cases` says, and every other step is a reset. -/
theorem onlyLifecycleEventsChangeV : Obligations.OnlyLifecycleEventsChangeV := by
  intro s t hstep
  rcases step_serves_or_resets hstep with ⟨line, tr, rest, hd, hr⟩ | ⟨hreset, ht, -⟩
  · rcases runTransaction_cases hr with ⟨_, rfl⟩ | ⟨rfl, hv, rfl⟩ | ⟨len, payload, m, rfl, hv, hcap, rfl⟩
    · exact ⟨fun hs ht => (nomatch hs.symm.trans ht), fun hs ht => (nomatch hs.symm.trans ht)⟩
    · exact ⟨fun hs => (nomatch hs.symm.trans hv), fun _ _ => .inl ⟨rest, hd, rfl⟩⟩
    · exact ⟨fun _ _ => ⟨len, payload, rest, hd, hcap, rfl⟩, fun hs => (nomatch hs.symm.trans hv)⟩
  · exact ⟨fun _ ht' => (nomatch ht.symm.trans ht'), fun _ _ => .inr hreset⟩

end

section
/-! PROOF. The buffer along a run that stays LOADED (`10_state.md` R28). -/

namespace Sys2Proof.Machine

theorem loaded_of_loadedThroughout {k : Nat} {s : State} (h : loadedThroughout k s) : s.v = .loaded := by
  cases k with
  | zero => simpa [loadedThroughout] using h
  | succ k =>
    simp only [loadedThroughout, Bool.and_eq_true, decide_eq_true_eq] at h
    exact h.1

theorem loadedThroughout_succ {k : Nat} {s : State} (h : loadedThroughout (k + 1) s) :
    ∃ t, step s = .next t ∧ loadedThroughout k t := by
  simp only [loadedThroughout, Bool.and_eq_true] at h
  obtain ⟨-, h⟩ := h
  split at h
  · exact ⟨_, ‹_›, h⟩
  · cases h
  · cases h

/-- A run that stays LOADED keeps LMAX, LEN and BUF. -/
theorem run_keeps_buffer {k : Nat} {u t : State} (hk : loadedThroughout k u) (hrun : core.run k u = .next t) :
    t.v = .loaded ∧ t.lmax = u.lmax ∧ t.len = u.len ∧ t.buf = u.buf := by
  induction k generalizing u with
  | zero =>
    cases hrun
    exact ⟨loaded_of_loadedThroughout hk, rfl, rfl, rfl⟩
  | succ k ih =>
    obtain ⟨w, hstep, hw⟩ := loadedThroughout_succ hk
    rw [run_succ_of_next hstep] at hrun
    obtain ⟨hlmax, hkeep⟩ := loadedStepsKeepBuffer u w hstep
    obtain ⟨hlen, hbuf⟩ := hkeep (loaded_of_loadedThroughout hk) (loaded_of_loadedThroughout hw)
    obtain ⟨hv, hlmax', hlen', hbuf'⟩ := ih hw hrun
    exact ⟨hv, hlmax'.trans hlmax, hlen'.trans hlen, hbuf'.trans hbuf⟩

end Sys2Proof.Machine

open Sys2Proof Sys2Proof.Machine

/-- Settles O4: the CONSTRUCT loads its payload, and the run that stays LOADED keeps LMAX, LEN and BUF. -/
theorem loadedBufferIsThePayload : Obligations.LoadedBufferIsThePayload := by
  intro s u t L payload k hs hwf hv hexec hu hk hrun
  obtain ⟨hL, hp⟩ := wf_construct_iff.1 hwf
  obtain ⟨-, hbufWF, -⟩ := hs
  change execConstruct L payload s = .next u at hexec
  obtain ⟨htv, hlmax, hlen, hbuf⟩ := run_keeps_buffer hk hrun
  rw [hlmax, hlen, hbuf]
  by_cases hcap : L ≤ s.lmax
  · obtain ⟨m, hm, hread⟩ := execConstruct_of_fits hv hcap hp
    cases hm.symm.trans hexec
    have hlenL : (BitVec.ofNat 48 L).toNat = L := by rw [BitVec.toNat_ofNat, Nat.mod_eq_of_lt hL]
    exact ⟨htv, hlenL.trans_le hcap, hlenL.trans hp.symm, hread hbufWF⟩
  · cases (execConstruct_of_tooLong hv (by omega)).symm.trans hexec
    cases hu.symm.trans hv

end

section
/-! PROOF. What no command can look at stays unobservable (`10_state.md` R21, R27): a simulation between states that look alike,
from the field updates up to runs. -/

namespace Sys2Proof.Machine

namespace LookAlike

variable {s t : State}

theorem setInbox (h : LookAlike s t) (bytes : List Byte) : LookAlike (s.setInbox bytes) (t.setInbox bytes) := by
  obtain ⟨hv, hlmax, -, hout, hline, hdraws, hbuf⟩ := h
  exact ⟨hv, hlmax, rfl, hout, hline, hdraws, hbuf⟩

theorem setResetLine (h : LookAlike s t) (line : List ResetEvent) : LookAlike (s.setResetLine line) (t.setResetLine line) := by
  obtain ⟨hv, hlmax, hin, hout, -, hdraws, hbuf⟩ := h
  exact ⟨hv, hlmax, hin, hout, rfl, hdraws, hbuf⟩

theorem draw (h : LookAlike s t) : LookAlike s.draw t.draw := by
  obtain ⟨hv, hlmax, hin, hout, hline, hdraws, hbuf⟩ := h
  exact ⟨hv, hlmax, hin, hout, hline, congrArg (· + 1) hdraws, hbuf⟩

theorem push (h : LookAlike s t) (rsp : Word) : LookAlike (s.push rsp) (t.push rsp) := by
  obtain ⟨hv, hlmax, hin, hout, hline, hdraws, hbuf⟩ := h
  exact ⟨hv, hlmax, hin, congrArg (· ++ [rsp]) hout, hline, hdraws, hbuf⟩

theorem setV_empty (h : LookAlike s t) : LookAlike (s.setV .empty) (t.setV .empty) := by
  obtain ⟨-, hlmax, hin, hout, hline, hdraws, -⟩ := h
  exact ⟨rfl, hlmax, hin, hout, hline, hdraws, nofun⟩

theorem applyReset (h : LookAlike s t) : LookAlike (applyReset s) (applyReset t) := by
  obtain ⟨-, hlmax, hin, hout, hline, hdraws, -⟩ := h
  exact ⟨rfl, hlmax, hin, hout, hline, hdraws, nofun⟩

/-- Memories that agree below LEN, loaded with that LEN. -/
theorem load (h : LookAlike s t) {m n : Memory} {len : BitVec 48} (hread : ∀ a < len.toNat, m.readByte a = n.readByte a) :
    LookAlike (((s.setBuf m).setLen len).setV .loaded) (((t.setBuf n).setLen len).setV .loaded) := by
  obtain ⟨-, hlmax, hin, hout, hline, hdraws, -⟩ := h
  exact ⟨rfl, hlmax, hin, hout, hline, hdraws, fun _ => ⟨rfl, hread⟩⟩

end LookAlike

/-- Two outcomes of states that look alike: next states that look alike, or the same fault. -/
inductive OutcomesAlike : Host.Outcome State Fault Refusal → Host.Outcome State Fault Refusal → Prop where
  | next {s t : State} (h : LookAlike s t) : OutcomesAlike (.next s) (.next t)
  | fault (r : Fault) : OutcomesAlike (.fault r) (.fault r)

theorem OutcomesAlike.visible_eq {o p : Host.Outcome State Fault Refusal} (h : OutcomesAlike o p) : visible o = visible p := by
  cases h with
  | next h =>
    obtain ⟨hv, -, hin, hout, -⟩ := h
    simp only [visible, hv, hin, hout]
  | fault r => rfl

variable {s t : State}

/-- A READ looks at V, at LEN, and at bytes below LEN. -/
theorem execRead_lookAlike (h : LookAlike s t) (pos width : Nat) :
    OutcomesAlike (execRead pos width s) (execRead pos width t) := by
  have ⟨hv, _, _, _, _, _, hbuf⟩ := h
  cases hs : s.v with
  | empty =>
    rw [execRead_of_empty hs, execRead_of_empty (hv ▸ hs)]
    exact .next (h.push _)
  | loaded =>
    have ht : t.v = .loaded := hv ▸ hs
    obtain ⟨hlen, hread⟩ := hbuf hs
    have htotal : total t = total s := by rw [total, total, hlen]
    by_cases hw : width = 0 ∨ width > Config.maxWidth
    · rw [execRead_of_badWidth hs hw, execRead_of_badWidth ht hw]
      exact .next (h.push _)
    · by_cases hr : pos + width > total s
      · rw [execRead_of_badRange hs hw hr, execRead_of_badRange ht hw (htotal ▸ hr)]
        exact .next (h.push _)
      · have hspan := startByte_add_spanBytes_le (Nat.le_of_not_lt hr)
        rw [execRead_of_inRange hs (by omega) (by omega) (by omega), execRead_of_inRange ht (by omega) (by omega) (by omega),
          Memory.readBig_congr fun j hj => hread (startByte pos + j) (by omega)]
        exact .next (h.push _)

/-- A CONSTRUCT looks at V and LMAX, and writes every byte below the LEN it sets. -/
theorem execConstruct_lookAlike (h : LookAlike s t) (hs : s.buf.WF) (ht : t.buf.WF) {len : Nat} {payload : List Byte}
    (hp : payload.length = len) : OutcomesAlike (execConstruct len payload s) (execConstruct len payload t) := by
  have ⟨hv, hlmax, _⟩ := h
  cases hsv : s.v with
  | loaded =>
    rw [execConstruct_of_loaded hsv, execConstruct_of_loaded (hv ▸ hsv)]
    exact .next (h.push _)
  | empty =>
    by_cases hcap : len > s.lmax
    · rw [execConstruct_of_tooLong hsv hcap, execConstruct_of_tooLong (hv ▸ hsv) (hlmax ▸ hcap)]
      exact .next (h.push _)
    · obtain ⟨m, hm, hmread⟩ := execConstruct_of_fits hsv (by omega) hp
      obtain ⟨n, hn, hnread⟩ := execConstruct_of_fits (hv ▸ hsv : t.v = .empty) (by omega) hp
      rw [hm, hn]
      refine .next ((h.load fun a ha => ?_).push _)
      have ha : a < payload.length := by
        rw [hp]
        exact ha.trans_le ((BitVec.toNat_ofNat ..).trans_le (Nat.mod_le ..))
      rw [hmread hs a ha, hnread ht a ha]

theorem execDestroy_lookAlike (h : LookAlike s t) : OutcomesAlike (execDestroy s) (execDestroy t) := by
  have ⟨hv, _⟩ := h
  cases hs : s.v with
  | empty =>
    rw [execDestroy_of_empty hs, execDestroy_of_empty (hv ▸ hs)]
    exact .next (h.push _)
  | loaded =>
    rw [execDestroy_of_loaded hs, execDestroy_of_loaded (hv ▸ hs)]
    exact .next (h.setV_empty.push _)

theorem runTransaction_lookAlike (h : LookAlike s t) (hs : s.buf.WF) (ht : t.buf.WF) {bytes rest : List Byte} {tr : Transaction}
    (hd : decode bytes = .ready tr rest) : OutcomesAlike (runTransaction tr s) (runTransaction tr t) := by
  match tr, hd with
  | .illegal _, _ => exact .next (h.push _)
  | .command (.read pos width), _ => exact execRead_lookAlike h pos width
  | .command (.construct _ _), hd => exact execConstruct_lookAlike h hs ht (payload_length_of_decode hd).1
  | .command .destroy, _ => exact execDestroy_lookAlike h

theorem serve_lookAlike (h : LookAlike s t) (hs : s.buf.WF) (ht : t.buf.WF) : OutcomesAlike (serve s) (serve t) := by
  have ⟨_, _, hin, _⟩ := h
  unfold serve
  rw [← hin]
  cases hd : decode s.inbox with
  | idle => exact .fault _
  | shortWord => exact .fault _
  | shortPayload => exact .fault _
  | ready tr rest => exact runTransaction_lookAlike (h.setInbox rest) hs ht hd

/-- The race of R120 goes the same way in both states, since the free value depends on the draws alone. -/
theorem resetRace_lookAlike (h : LookAlike s t) (hs : s.buf.WF) (ht : t.buf.WF) :
    OutcomesAlike (resetRace s) (resetRace t) := by
  have ⟨_, _, hin, _, _, hdraws, _⟩ := h
  by_cases hd : ∃ tr rest, decode s.inbox = .ready tr rest
  · obtain ⟨tr, rest, hd⟩ := hd
    have hd' : decode t.inbox = .ready tr rest := hin ▸ hd
    have hrest := h.draw.setInbox rest
    cases hc : Config.resetRaceCompletes s.draws with
    | false =>
      rw [resetRace_of_cancels hd hc, resetRace_of_cancels hd' (hdraws ▸ hc)]
      exact .next hrest.applyReset
    | true =>
      obtain ⟨u, hu⟩ := runTransaction_answers hd (s.draw.setInbox rest)
      obtain ⟨w, hw⟩ := runTransaction_answers hd (t.draw.setInbox rest)
      have huw := runTransaction_lookAlike hrest hs ht hd
      rw [hu, hw] at huw
      obtain ⟨huw⟩ := huw
      rw [resetRace_of_completes hd hc hu, resetRace_of_completes hd' (hdraws ▸ hc) hw]
      exact .next huw.applyReset
  · rw [resetRace_of_notReady fun tr rest hr => hd ⟨tr, rest, hr⟩,
      resetRace_of_notReady fun tr rest hr => hd ⟨tr, rest, hin ▸ hr⟩]
    exact .next (h.setInbox []).applyReset

theorem step_lookAlike (h : LookAlike s t) (hs : s.buf.WF) (ht : t.buf.WF) : OutcomesAlike (step s) (step t) := by
  have ⟨_, _, _, _, hline, _⟩ := h
  match hl : s.resetLine with
  | [] =>
    rw [step_of_no_reset hl, step_of_no_reset (hline ▸ hl)]
    exact serve_lookAlike h hs ht
  | e :: line =>
    rw [step_of_event hl, step_of_event (hline ▸ hl)]
    have h' := h.setResetLine line
    cases e with
    | quiet => exact serve_lookAlike h' hs ht
    | betweenTransactions => exact .next h'.applyReset
    | duringTransaction => exact resetRace_lookAlike h' hs ht

theorem run_lookAlike (k : Nat) (h : LookAlike s t) (hs : s.Inv) (ht : t.Inv) :
    OutcomesAlike (core.run k s) (core.run k t) := by
  induction k generalizing s t with
  | zero => exact .next h
  | succ k ih =>
    have ⟨_, hsWF, _⟩ := hs
    have ⟨_, htWF, _⟩ := ht
    match hs' : step s, ht' : step t, step_lookAlike h hsWF htWF with
    | .next s', .next t', .next h' =>
      rw [run_succ_of_next hs', run_succ_of_next ht']
      exact ih h' (stepKeepsInvariant s s' hs hs') (stepKeepsInvariant t t' ht ht')
    | _, _, .fault r =>
      rw [run_succ_of_fault hs', run_succ_of_fault ht']
      exact .fault r

end Sys2Proof.Machine

open Sys2Proof Sys2Proof.Machine

/-- Settles O3: states that look alike run to outcomes that look alike, of which the host sees the same. -/
theorem hiddenBytesAreUnobservable : Obligations.HiddenBytesAreUnobservable :=
  fun k _ _ hs ht h => (run_lookAlike k h hs ht).visible_eq

end

section
/-! PROOF. The value of a READ as the number its bits form (`40_read.md` R73), grown by one bit at the low end: what makes wide
READs concatenations (`20_memory.md` R35), and what a READ of whole bytes comes to (R33). -/

namespace Sys2Proof.Machine

/-- The value an in-range READ returns (R72, R73). -/
def fieldAt (s : State) (pos width : Nat) : Nat :=
  extractField (s.buf.readBig (startByte pos) (spanBytes pos width)) pos width

/-- A READ that passes the three checks answers OK with its field, which DATA holds whole. -/
theorem exec_read_returns_fieldAt {s : State} {pos width : Nat} (hv : s.v = .loaded) (hw : 1 ≤ width)
    (hmax : width ≤ Config.maxWidth) (hr : pos + width ≤ total s) :
    ∃ d : BitVec 48, exec (.read pos width) s = .next (s.push (responseWord .ok d)) ∧ d.toNat = fieldAt s pos width := by
  refine ⟨zext48 (fieldAt s pos width), execRead_of_inRange hv hw hmax hr, ?_⟩
  have hlt : fieldAt s pos width < 2 ^ 48 := calc
    fieldAt s pos width < 2 ^ width := extractField_lt _ pos width
    _ ≤ 2 ^ 48 := Nat.pow_le_pow_right (by decide) (hmax.trans (by decide))
  rw [zext48, BitVec.toNat_ofNat, Nat.mod_eq_of_lt hlt]

theorem fieldAt_zero (s : State) (pos : Nat) : fieldAt s pos 0 = 0 := by
  rw [fieldAt, extractField_eq_div_mod, pow_zero, Nat.mod_one]

/-- The byte that holds the bit behind a range is the last byte of the range one bit longer. -/
theorem spanBytes_succ (pos width : Nat) :
    startByte pos + (spanBytes pos (width + 1) - 1) = (pos + width) / 8 ∧ 1 ≤ spanBytes pos (width + 1) := by
  rw [startByte, spanBytes_eq]
  omega

theorem trailingBits_succ (pos width : Nat) : trailingBits pos (width + 1) = 7 - (pos + width) % 8 := by
  rw [trailingBits, spanBytes_eq, startBit]
  omega

/-- A range that ends at a byte's end needs one byte more for its next bit; any other has it in its last byte. -/
theorem readBig_div_trailingBits_of_succ (m : Memory) (pos width : Nat) :
    m.readBig (startByte pos) (spanBytes pos width) / 2 ^ trailingBits pos width =
      m.readBig (startByte pos) (spanBytes pos (width + 1)) / 2 ^ (trailingBits pos (width + 1) + 1) := by
  by_cases h : (pos + width) % 8 = 0
  · have hspan : spanBytes pos (width + 1) = spanBytes pos width + 1 := by simp only [spanBytes_eq]; omega
    have htrail : trailingBits pos width = 0 := by rw [trailingBits, spanBytes_eq, startBit]; omega
    have hbyte := (m.readByte (startByte pos + spanBytes pos width)).isLt
    rw [trailingBits_succ, hspan, Memory.readBig_succ, htrail, h]
    omega
  · have hspan : spanBytes pos (width + 1) = spanBytes pos width := by simp only [spanBytes_eq]; omega
    have htrail : trailingBits pos width = trailingBits pos (width + 1) + 1 := by
      rw [trailingBits_succ, trailingBits, spanBytes_eq, startBit]; omega
    rw [hspan, htrail]

/-- The lowest bit of a range is the buffer's bit at its end. -/
theorem readBig_div_trailingBits_mod_two (s : State) (pos width : Nat) :
    s.buf.readBig (startByte pos) (spanBytes pos (width + 1)) / 2 ^ trailingBits pos (width + 1) % 2 =
      bufferBit s (pos + width) := by
  obtain ⟨hlast, hpos⟩ := spanBytes_succ pos width
  obtain ⟨n, hn⟩ : ∃ n, spanBytes pos (width + 1) = n + 1 := ⟨_, (Nat.sub_add_cancel hpos).symm⟩
  rw [hn, Nat.add_sub_cancel] at hlast
  have hbyte := (s.buf.readByte ((pos + width) / 8)).isLt
  rw [hn, Memory.readBig_succ, hlast, trailingBits_succ, bufferBit_eq_toNat_getLsbD, ← Nat.toNat_testBit, mul_comm]
  rw [show (256 : Nat) = 2 ^ 8 from rfl, Nat.testBit_two_pow_mul_add _ hbyte, if_pos (by omega)]
  rfl

/-- One bit more at the low end (R73, R75). -/
theorem fieldAt_succ (s : State) (pos width : Nat) :
    fieldAt s pos (width + 1) = 2 * fieldAt s pos width + bufferBit s (pos + width) := by
  simp only [fieldAt, extractField_eq_div_mod, readBig_div_trailingBits_of_succ s.buf pos width, pow_succ]
  rw [mul_comm (2 ^ width) 2, Nat.mod_mul, readBig_div_trailingBits_mod_two, Nat.div_div_eq_div_mul, add_comm]

/-- R35: a field is its two parts concatenated. -/
theorem fieldAt_add (s : State) (pos w1 w2 : Nat) :
    fieldAt s pos (w1 + w2) = fieldAt s pos w1 * 2 ^ w2 + fieldAt s (pos + w1) w2 := by
  induction w2 with
  | zero => simp [fieldAt_zero]
  | succ w2 ih =>
    rw [← add_assoc, fieldAt_succ, ih, fieldAt_succ, add_assoc pos, pow_succ]
    ring

/-- MemRead of R12 as a sum: the byte of lowest index is the most significant. -/
theorem Memory.readBig_eq_sum (m : Memory) (a n : Nat) :
    m.readBig a n = ∑ j ∈ Finset.range n, (m.readByte (a + j)).toNat * 256 ^ (n - 1 - j) := by
  induction n with
  | zero => rfl
  | succ n ih =>
    rw [readBig_succ, ih, Finset.sum_range_succ, Finset.sum_mul]
    congr 1
    · refine Finset.sum_congr rfl fun j hj => ?_
      have hj := Finset.mem_range.1 hj
      rw [mul_assoc, ← pow_succ, show n - 1 - j + 1 = n + 1 - 1 - j by omega]
    · simp

/-- A field of whole bytes is those bytes, with nothing shifted out or masked off (R78). -/
theorem fieldAt_bytes (s : State) (b n : Nat) : fieldAt s (8 * b) (8 * n) = s.buf.readBig b n := by
  have hbyte : startByte (8 * b) = b := by rw [startByte]; omega
  have hspan : spanBytes (8 * b) (8 * n) = n := by rw [spanBytes_eq]; omega
  have htrail : trailingBits (8 * b) (8 * n) = 0 := by rw [trailingBits, hspan, startBit]; omega
  have hlt : s.buf.readBig b n < 2 ^ (8 * n) := by rw [pow_mul]; exact Memory.readBig_lt s.buf b n
  rw [fieldAt, extractField_eq_div_mod, hbyte, hspan, htrail, pow_zero, Nat.div_one, Nat.mod_eq_of_lt hlt]

end Sys2Proof.Machine

open Sys2Proof Sys2Proof.Machine

/-- Settles O18: all three READs are in range and return their fields, and a field is its two parts concatenated. -/
theorem wideReadIsItsPartsConcatenated : Obligations.WideReadIsItsPartsConcatenated := by
  intro s p w1 w2 hv hw1 hw2 hmax hr
  change p + w1 + w2 ≤ total s at hr
  have hmax' : w1 + w2 ≤ Config.maxWidth := hmax
  obtain ⟨v1, hread1, hv1⟩ := exec_read_returns_fieldAt (pos := p) hv hw1 (by omega) (by omega)
  obtain ⟨v2, hread2, hv2⟩ := exec_read_returns_fieldAt (pos := p + w1) hv hw2 (by omega) hr
  obtain ⟨v, hread, hv⟩ := exec_read_returns_fieldAt (pos := p) (width := w1 + w2) hv (by omega) hmax' (by omega)
  exact ⟨v1, v2, v, hread1, hread2, hread, by rw [hv, hv1, hv2, fieldAt_add]⟩

/-- Settles O20: the field of n whole bytes is their big-endian number. -/
theorem byteAlignedReadIsBigEndian : Obligations.ByteAlignedReadIsBigEndian := by
  intro s b n hv hn hmax hr
  have hmax' : 8 * n ≤ Config.maxWidth := show 8 * n ≤ 32 by omega
  have hr' : 8 * b + 8 * n ≤ total s := by unfold total; omega
  obtain ⟨d, hread, hd⟩ := exec_read_returns_fieldAt hv (by omega) hmax' hr'
  exact ⟨d, hread, by rw [hd, fieldAt_bytes, Memory.readBig_eq_sum]⟩

end

section
/-! PROOF. READs as answers that V, LEN and BUF alone determine (`20_memory.md` R45, `40_read.md` R76), and runs of READs on the
port. -/

namespace Sys2Proof.Machine

/-- Two states of a block with the same V, LEN and BUF: the same for every READ. -/
structure SameBlock (s t : State) : Prop where
  v : t.v = s.v
  len : t.len = s.len
  buf : t.buf = s.buf

namespace SameBlock

variable {s t : State}

theorem refl (s : State) : SameBlock s s := ⟨rfl, rfl, rfl⟩

theorem symm (h : SameBlock s t) : SameBlock t s := ⟨h.v.symm, h.len.symm, h.buf.symm⟩

theorem trans {u : State} (h : SameBlock s t) (h' : SameBlock t u) : SameBlock s u :=
  ⟨h'.v.trans h.v, h'.len.trans h.len, h'.buf.trans h.buf⟩

theorem push (h : SameBlock s t) (rsp : Word) : SameBlock s (t.push rsp) := ⟨h.v, h.len, h.buf⟩

theorem setInbox (h : SameBlock s t) (bytes : List Byte) : SameBlock s (t.setInbox bytes) := ⟨h.v, h.len, h.buf⟩

theorem total_eq (h : SameBlock s t) : total t = total s := by rw [total, h.len, total]

end SameBlock

/-- A READ has one answer for a given V, LEN and BUF, and appending it is all it does. -/
theorem execRead_answers_alike (pos width : Nat) (s : State) :
    ∃ rsp, ∀ t, SameBlock s t → execRead pos width t = .next (t.push rsp) := by
  cases hv : s.v with
  | empty => exact ⟨_, fun t h => execRead_of_empty (h.v.trans hv)⟩
  | loaded =>
    by_cases hw : width = 0 ∨ width > Config.maxWidth
    · exact ⟨_, fun t h => execRead_of_badWidth (h.v.trans hv) hw⟩
    · by_cases hr : pos + width > total s
      · exact ⟨_, fun t h => execRead_of_badRange (h.v.trans hv) hw (h.total_eq ▸ hr)⟩
      · refine ⟨responseWord .ok (zext48 (fieldAt s pos width)), fun t h => ?_⟩
        have hr' : pos + width ≤ total t := by rw [h.total_eq]; omega
        rw [execRead_of_inRange (h.v.trans hv) (by omega) (by omega) hr', h.buf]
        rfl

/-- `rsp` is the answer to READ `i` of every block with the V, LEN and BUF of `s`. -/
def AnswersRead (s : State) (i : Instr) (rsp : Word) : Prop :=
  ∀ pos width, i = .read pos width → ∀ t, SameBlock s t → exec i t = .next (t.push rsp)

theorem exists_answersRead (s : State) (i : Instr) : ∃ rsp, AnswersRead s i rsp := by
  cases i with
  | read pos width =>
    obtain ⟨rsp, hrsp⟩ := execRead_answers_alike pos width s
    exact ⟨rsp, fun _ _ _ => hrsp⟩
  | construct len payload => exact ⟨0, nofun⟩
  | destroy => exact ⟨0, nofun⟩

theorem wf_read_iff {pos width : Nat} : (Instr.read pos width).WF ↔ pos < 2 ^ 48 ∧ width < 2 ^ 6 := by
  simp only [Instr.WF, Instr.wellFormed, Bool.and_eq_true, decide_eq_true_eq]

theorem toNat_encodeWord_read {pos width : Nat} (hpos : pos < 2 ^ 48) (hwidth : width < 2 ^ 6) :
    (encodeWord (.read pos width)).toNat = width * 2 ^ 48 + pos := by
  refine (toNat_append_eq (0b00#2 ++ 0#8 ++ BitVec.ofNat 6 width) (BitVec.ofNat 48 pos)).trans ?_
  simp only [toNat_append_eq, BitVec.toNat_ofNat]
  omega

theorem opField_encodeWord_read {pos width : Nat} (h : (Instr.read pos width).WF) :
    opField (encodeWord (.read pos width)) = 0b00#2 := by
  obtain ⟨hpos, hwidth⟩ := wf_read_iff.1 h
  apply BitVec.eq_of_toNat_eq
  rw [opField, toNat_extractLsb_eq, toNat_encodeWord_read hpos hwidth, BitVec.toNat_ofNat]
  omega

/-- The word of a well-formed READ decodes to that READ (R51, R55). -/
theorem decodeWord_encodeWord_read {pos width : Nat} (h : (Instr.read pos width).WF) (payload : List Byte) :
    decodeWord (encodeWord (.read pos width)) payload = .command (.read pos width) := by
  obtain ⟨hpos, hwidth⟩ := wf_read_iff.1 h
  have hword := toNat_encodeWord_read hpos hwidth
  have hreserved : readReserved (encodeWord (.read pos width)) = 0 := by
    apply BitVec.eq_of_toNat_eq
    rw [readReserved, toNat_extractLsb_eq, hword]
    show _ = 0
    omega
  have hposField : (posField (encodeWord (.read pos width))).toNat = pos := by
    rw [posField, toNat_extractLsb_eq, hword]
    omega
  have hwidthField : (widthField (encodeWord (.read pos width))).toNat = width := by
    rw [widthField, toNat_extractLsb_eq, hword]
    omega
  rw [decodeWord, if_pos (opField_encodeWord_read h), if_neg (by simp [hreserved]), hposField, hwidthField]

/-- A well-formed READ at the head of the port is the next transaction: a command word with no payload (R57). -/
theorem decode_encode_read {pos width : Nat} (h : (Instr.read pos width).WF) (rest : List Byte) :
    decode (encode (.read pos width) ++ rest) = .ready (.command (.read pos width)) rest := by
  refine decode_eq_ready.2 ⟨encodeWord (.read pos width), [], rfl, ?_, (decodeWord_encodeWord_read h []).symm⟩
  rw [payloadLength, if_neg (by rw [opField_encodeWord_read h]; decide)]
  rfl

/-- With no reset event, the step that finds a READ at the head of the port carries it out. -/
theorem step_read {u : State} {pos width : Nat} {rest : List Byte} (h : (Instr.read pos width).WF)
    (hline : u.resetLine = []) (hport : u.inbox = encode (.read pos width) ++ rest) :
    step u = exec (.read pos width) (u.setInbox rest) := by
  rw [step_of_no_reset hline]
  exact serve_of_ready (hport ▸ decode_encode_read h rest)

/-- A port that holds READs runs through them, appending to the responses the answer to each. -/
theorem run_reads {s : State} {answer : Instr → Word} (hanswer : ∀ i, AnswersRead s i (answer i)) {reads : List Instr}
    (hreads : ∀ i ∈ reads, i.WF ∧ ∃ p w, i = .read p w) {rest : List Byte} {u : State} (hsame : SameBlock s u)
    (hline : u.resetLine = []) (hport : u.inbox = reads.flatMap encode ++ rest) :
    core.run reads.length u = .next { u with inbox := rest, outbox := u.outbox ++ reads.map answer } := by
  induction reads generalizing u with
  | nil =>
    obtain rfl : u.inbox = rest := hport
    rw [List.map_nil, List.append_nil]
    rfl
  | cons i reads ih =>
    obtain ⟨hi, htail⟩ := List.forall_mem_cons.1 hreads
    obtain ⟨hwf, pos, width, rfl⟩ := hi
    have hstep : step u = .next ((u.setInbox (reads.flatMap encode ++ rest)).push (answer (.read pos width))) := by
      rw [step_read hwf hline (by rw [hport, List.flatMap_cons, List.append_assoc])]
      exact hanswer _ pos width rfl _ (hsame.setInbox _)
    have hsame' := (hsame.setInbox (reads.flatMap encode ++ rest)).push (answer (.read pos width))
    refine (run_succ_of_next hstep).trans ((ih htail hsame' hline rfl).trans ?_)
    simp [State.push, State.setInbox]

end Sys2Proof.Machine

open Sys2Proof Sys2Proof.Machine

/-- Settles O35: each READ has one answer for the V, LEN and BUF that READs leave alone, and a run appends it. -/
theorem readsAnswerAlikeInEveryOrder : Obligations.ReadsAnswerAlikeInEveryOrder := by
  intro s
  choose answer hanswer using exists_answersRead s
  exact ⟨answer, fun _ _ _ hreads hv hlen hbuf hline hport => run_reads hanswer hreads ⟨hv, hlen, hbuf⟩ hline hport⟩

end

section
/-! PROOF. Scan passes that share a block (`20_memory.md` R45, `42_scan.md` R93, `70_reset_and_hazards.md` R126): what a pass does
depends on V, LEN and BUF alone, and it leaves them as they are. -/

namespace Sys2Proof.Machine

/-- The answer to its READ is all an iteration needs of the block. -/
theorem scanIteration_of_answer {w : Nat} {p : HostPass} {s : State} {rsp : Word}
    (h : execRead p.pos w s = .next (s.push rsp)) :
    scanIteration w p s =
      if statusField rsp = Status.ok.code then .next (s.push rsp, p.advance w rsp)
      else .fault (.scanAborted (Status.ofCode (statusField rsp))) := by
  simp [scanIteration, exec_read, h]

/-- An iteration leaves V, LEN and BUF alone and would bring the pass as far on any block with the same ones. -/
theorem scanIteration_alike {w : Nat} {p q : HostPass} {s s' t : State} (h : scanIteration w p s = .next (t, q))
    (hs : SameBlock s s') : SameBlock s t ∧ ∃ t', scanIteration w p s' = .next (t', q) ∧ SameBlock s t' := by
  obtain ⟨rsp, hrsp⟩ := execRead_answers_alike p.pos w s
  rw [scanIteration_of_answer (hrsp s (.refl s))] at h
  split at h
  · rename_i hok
    cases h
    exact ⟨(SameBlock.refl s).push rsp, s'.push rsp, (scanIteration_of_answer (hrsp s' hs)).trans (if_pos hok), hs.push rsp⟩
  · cases h

/-- A turn of a thread is an iteration of its pass, or nothing (R95). -/
theorem turn_cases {th th' : ScanThread} {s t : State} (h : turn th s = .next (t, th')) :
    (th.pass.pos + th.width ≤ th.stop ∧ ∃ q, scanIteration th.width th.pass s = .next (t, q) ∧ th' = { th with pass := q }) ∨
    (¬ th.pass.pos + th.width ≤ th.stop ∧ t = s ∧ th' = th) := by
  unfold turn at h
  split at h
  · split at h
    · rename_i hiter; cases h; exact .inl ⟨‹_›, _, hiter, rfl⟩
    · cases h
    · cases h
  · cases h; exact .inr ⟨‹_›, rfl, rfl⟩

/-- A turn leaves V, LEN and BUF alone and would bring the thread as far on any block with the same ones. -/
theorem turn_alike {th th' : ScanThread} {s s' t : State} (h : turn th s = .next (t, th')) (hs : SameBlock s s') :
    SameBlock s t ∧ ∃ t', turn th s' = .next (t', th') ∧ SameBlock s t' := by
  rcases turn_cases h with ⟨hpre, q, hiter, rfl⟩ | ⟨hpre, rfl, rfl⟩
  · obtain ⟨hst, t', hiter', hst'⟩ := scanIteration_alike hiter hs
    exact ⟨hst, t', by simp only [turn, if_pos hpre, hiter'], hst'⟩
  · exact ⟨.refl _, s', by rw [turn, if_neg hpre], hs⟩

theorem turns_succ_of_turn {n : Nat} {th th' : ScanThread} {s t : State} (h : turn th s = .next (t, th')) :
    turns (n + 1) th s = turns n th' t := by
  simp only [turns, h]

theorem interleave_cons_of_none {j : Nat} {schedule : List Nat} {ths : List ScanThread} {s : State} (h : ths[j]? = none) :
    interleave (j :: schedule) ths s = interleave schedule ths s := by
  simp only [interleave, h]

/-- A schedule that runs to an end runs its first turn to an end. -/
theorem interleave_cons_eq_next {j : Nat} {schedule : List Nat} {ths ths' : List ScanThread} {th : ScanThread} {s t : State}
    (hj : ths[j]? = some th) (h : interleave (j :: schedule) ths s = .next (t, ths')) :
    ∃ u th', turn th s = .next (u, th') ∧ interleave schedule (ths.set j th') u = .next (t, ths') := by
  simp only [interleave, hj] at h
  split at h
  · exact ⟨_, _, ‹_›, h⟩
  · cases h
  · cases h

theorem interleave_keeps_block {schedule : List Nat} {ths ths' : List ScanThread} {s t : State}
    (h : interleave schedule ths s = .next (t, ths')) : SameBlock s t := by
  induction schedule generalizing ths s with
  | nil => cases h; exact .refl _
  | cons j schedule ih =>
    cases hj : ths[j]? with
    | none => exact ih (interleave_cons_of_none hj ▸ h)
    | some th =>
      obtain ⟨u, th', hturn, hrest⟩ := interleave_cons_eq_next hj h
      exact (turn_alike hturn (.refl s)).1.trans (ih hrest)

/-- Each thread ends where its own turns bring it, alone on any block `s'` with the same V, LEN and BUF: the other threads' turns
change nothing that one of its own depends on. -/
theorem interleave_alone {schedule : List Nat} {ths ths' : List ScanThread} {s s' t : State} {k : Nat} {th : ScanThread}
    (h : interleave schedule ths s = .next (t, ths')) (hs : SameBlock s s') (hk : ths[k]? = some th) :
    ∃ u th', turns (schedule.count k) th s' = .next (u, th') ∧ ths'[k]? = some th' := by
  induction schedule generalizing ths s s' th with
  | nil => cases h; exact ⟨s', th, rfl, hk⟩
  | cons j schedule ih =>
    cases hj : ths[j]? with
    | none =>
      have hne : j ≠ k := by rintro rfl; simp [hj] at hk
      rw [List.count_cons_of_ne hne]
      exact ih (interleave_cons_of_none hj ▸ h) hs hk
    | some thj =>
      obtain ⟨v, thj', hturn, hrest⟩ := interleave_cons_eq_next hj h
      obtain ⟨hv, v', hturn', hv'⟩ := turn_alike hturn hs
      by_cases hjk : j = k
      · subst hjk
        obtain rfl : thj = th := Option.some.inj (hj.symm.trans hk)
        have hset : (ths.set j thj')[j]? = some thj' := List.getElem?_set_self (List.getElem?_eq_some_iff.1 hk).1
        rw [List.count_cons_self, turns_succ_of_turn hturn']
        exact ih hrest (hv.symm.trans hv') hset
      · rw [List.count_cons_of_ne hjk]
        exact ih hrest (hv.symm.trans hs) ((List.getElem?_set_ne hjk).trans hk)

end Sys2Proof.Machine

open Sys2Proof Sys2Proof.Machine

/-- Settles O36: no turn changes the block, so each thread's turns find it as they would alone. -/
theorem concurrentPassesAreIndependent : Obligations.ConcurrentPassesAreIndependent := by
  intro schedule ths ths' s t h
  obtain ⟨hv, hlen, hbuf⟩ := interleave_keeps_block h
  exact ⟨⟨hv, hlen, hbuf⟩, fun k th hk => interleave_alone h (.refl s) hk⟩

end

section
/-! PROOF. The command word as a number (`30_encoding.md` R50 to R55, R64): its fields as quotients and remainders, which words
decode to which commands, and the word of each command. -/

namespace Sys2Proof

section Fields

variable {cmd : Word}

theorem opField_eq_iff {op : BitVec 2} : opField cmd = op ↔ cmd.toNat / 2 ^ 62 = op.toNat := by
  have := cmd.isLt
  rw [← BitVec.toNat_inj, opField, toNat_extractLsb_eq, Nat.mod_eq_of_lt (by omega)]

theorem readReserved_eq_zero_iff : readReserved cmd = 0 ↔ cmd.toNat / 2 ^ 54 % 2 ^ 8 = 0 := by
  rw [← BitVec.toNat_inj, readReserved, toNat_extractLsb_eq]
  rfl

theorem constructReserved_eq_zero_iff : constructReserved cmd = 0 ↔ cmd.toNat / 2 ^ 48 % 2 ^ 14 = 0 := by
  rw [← BitVec.toNat_inj, constructReserved, toNat_extractLsb_eq]
  rfl

theorem destroyReserved_eq_zero_iff : destroyReserved cmd = 0 ↔ cmd.toNat % 2 ^ 62 = 0 := by
  rw [← BitVec.toNat_inj, destroyReserved, toNat_extractLsb_eq, pow_zero, Nat.div_one]
  rfl

theorem toNat_posField : (posField cmd).toNat = cmd.toNat % 2 ^ 48 := by
  rw [posField, toNat_extractLsb_eq, pow_zero, Nat.div_one]

theorem toNat_widthField : (widthField cmd).toNat = cmd.toNat / 2 ^ 48 % 2 ^ 6 := by
  rw [widthField, toNat_extractLsb_eq]

theorem toNat_lenField : (lenField cmd).toNat = cmd.toNat % 2 ^ 48 := toNat_posField

/-- R56 and R57: only OP = `01` calls for a payload. -/
theorem payloadLength_eq : payloadLength cmd = if cmd.toNat / 2 ^ 62 = 1 then cmd.toNat % 2 ^ 48 else 0 := by
  simp only [payloadLength, opField_eq_iff, toNat_lenField]
  rfl

/-- The legal words (R51 to R53): READ's are the numbers below 2^54, CONSTRUCT's have 2^14 above bit 47, DESTROY's is 2^63. -/
theorem decodeWord_eq_command_iff {payload : List Byte} {i : Instr} :
    decodeWord cmd payload = .command i ↔
      (cmd.toNat < 2 ^ 54 ∧ i = .read (cmd.toNat % 2 ^ 48) (cmd.toNat / 2 ^ 48 % 2 ^ 6)) ∨
      (cmd.toNat / 2 ^ 48 = 2 ^ 14 ∧ i = .construct (cmd.toNat % 2 ^ 48) payload) ∨
      (cmd.toNat = 2 ^ 63 ∧ i = .destroy) := by
  have := cmd.isLt
  simp only [decodeWord, opField_eq_iff, ne_eq, readReserved_eq_zero_iff, constructReserved_eq_zero_iff,
    destroyReserved_eq_zero_iff, toNat_posField, toNat_widthField, toNat_lenField, BitVec.toNat_ofNat]
  constructor
  · intro h
    split at h
    · split at h
      · cases h
      · cases h; exact .inl ⟨by omega, rfl⟩
    · split at h
      · split at h
        · cases h
        · cases h; exact .inr (.inl ⟨by omega, rfl⟩)
      · split at h
        · split at h
          · cases h
          · cases h; exact .inr (.inr ⟨by omega, rfl⟩)
        · cases h
  · rintro (⟨hword, rfl⟩ | ⟨hword, rfl⟩ | ⟨hword, rfl⟩)
    · rw [if_pos (by omega), if_neg (by omega)]
    · rw [if_neg (by omega), if_pos (by omega), if_neg (by omega)]
    · rw [if_neg (by omega), if_neg (by omega), if_pos (by omega), if_neg (by omega)]

/-- A mask of the bits from `k` up keeps the quotient by 2^k. -/
theorem toNat_and_highBits (k : Nat) : (cmd &&& BitVec.allOnes 64 <<< k).toNat = cmd.toNat / 2 ^ k * 2 ^ k := by
  rw [← BitVec.shiftLeft_ushiftRight, BitVec.toNat_shiftLeft, BitVec.toNat_ushiftRight, Nat.shiftLeft_eq,
    Nat.shiftRight_eq_div_pow, Nat.mod_eq_of_lt ((Nat.div_mul_le_self _ _).trans_lt cmd.isLt)]

theorem readMask_iff : cmd &&& 0xFFC0000000000000#64 = 0x0000000000000000#64 ↔ cmd.toNat < 2 ^ 54 := by
  rw [show 0xFFC0000000000000#64 = BitVec.allOnes 64 <<< 54 by decide, ← BitVec.toNat_inj, toNat_and_highBits,
    BitVec.toNat_ofNat]
  omega

theorem constructMask_iff : cmd &&& 0xFFFF000000000000#64 = 0x4000000000000000#64 ↔ cmd.toNat / 2 ^ 48 = 2 ^ 14 := by
  rw [show 0xFFFF000000000000#64 = BitVec.allOnes 64 <<< 48 by decide, ← BitVec.toNat_inj, toNat_and_highBits,
    BitVec.toNat_ofNat]
  omega

theorem destroyMask_iff : cmd &&& 0xFFFFFFFFFFFFFFFF#64 = 0x8000000000000000#64 ↔ cmd.toNat = 2 ^ 63 := by
  rw [show 0xFFFFFFFFFFFFFFFF#64 = BitVec.allOnes 64 by decide, BitVec.and_allOnes, ← BitVec.toNat_inj]
  rfl

end Fields

theorem toNat_encodeWord_construct {len : Nat} (hlen : len < 2 ^ 48) (payload : List Byte) :
    (encodeWord (.construct len payload)).toNat = 2 ^ 62 + len := by
  refine (toNat_append_eq (0b01#2 ++ 0#14) (BitVec.ofNat 48 len)).trans ?_
  rw [toNat_append_eq, BitVec.toNat_ofNat len, Nat.mod_eq_of_lt hlen]
  rfl

theorem toNat_encodeWord_destroy : (encodeWord .destroy).toNat = 2 ^ 63 := rfl

/-- A well-formed command's word decodes, with the command's payload, to the command. -/
theorem decodeWord_encodeWord {i : Instr} (h : i.WF) : decodeWord (encodeWord i) (payloadOf i) = .command i := by
  cases i with
  | read pos width => exact Machine.decodeWord_encodeWord_read h []
  | construct len payload =>
    obtain ⟨hlen, -⟩ := Machine.wf_construct_iff.1 h
    refine decodeWord_eq_command_iff.2 (.inr (.inl ?_))
    rw [toNat_encodeWord_construct hlen, show (2 ^ 62 + len) % 2 ^ 48 = len by omega]
    exact ⟨by omega, rfl⟩
  | destroy => exact decodeWord_eq_command_iff.2 (.inr (.inr ⟨toNat_encodeWord_destroy, rfl⟩))

/-- A well-formed command carries the payload its word calls for (R56). -/
theorem length_payloadOf {i : Instr} (h : i.WF) : (payloadOf i).length = payloadLength (encodeWord i) := by
  rw [payloadLength_eq]
  cases i with
  | read pos width =>
    obtain ⟨hpos, hwidth⟩ := Machine.wf_read_iff.1 h
    rw [Machine.toNat_encodeWord_read hpos hwidth, if_neg (by omega)]
    rfl
  | construct len payload =>
    obtain ⟨hlen, hpayload⟩ := Machine.wf_construct_iff.1 h
    rw [toNat_encodeWord_construct hlen, if_pos (by omega), show (2 ^ 62 + len) % 2 ^ 48 = len by omega]
    exact hpayload
  | destroy => rfl

/-- A shifted field OR-ed onto a smaller one is their sum. -/
theorem toNat_shiftLeft_or {x y : Word} {k : Nat} (hx : x.toNat * 2 ^ k < 2 ^ 64) (hy : y.toNat < 2 ^ k) :
    (x <<< k ||| y).toNat = x.toNat * 2 ^ k + y.toNat := by
  rw [BitVec.toNat_or, BitVec.toNat_shiftLeft, Nat.shiftLeft_eq, Nat.mod_eq_of_lt hx, ← Nat.shiftLeft_eq,
    Nat.shiftLeft_add_eq_or_of_lt hy]

theorem encodeWord_read_eq_or {pos width : Nat} (h : (Instr.read pos width).WF) :
    encodeWord (.read pos width) = BitVec.ofNat 64 width <<< 48 ||| BitVec.ofNat 64 pos := by
  obtain ⟨hpos, hwidth⟩ := Machine.wf_read_iff.1 h
  have hw : (BitVec.ofNat 64 width).toNat = width := Nat.mod_eq_of_lt (by omega)
  have hp : (BitVec.ofNat 64 pos).toNat = pos := Nat.mod_eq_of_lt (by omega)
  apply BitVec.eq_of_toNat_eq
  rw [Machine.toNat_encodeWord_read hpos hwidth, toNat_shiftLeft_or (by omega) (by omega), hw, hp]

theorem encodeWord_construct_eq_or {len : Nat} {payload : List Byte} (h : (Instr.construct len payload).WF) :
    encodeWord (.construct len payload) = 1#64 <<< 62 ||| BitVec.ofNat 64 len := by
  obtain ⟨hlen, -⟩ := Machine.wf_construct_iff.1 h
  have hn : (BitVec.ofNat 64 len).toNat = len := Nat.mod_eq_of_lt (by omega)
  apply BitVec.eq_of_toNat_eq
  rw [toNat_encodeWord_construct hlen, toNat_shiftLeft_or (by decide) (by omega), hn]
  rfl

end Sys2Proof

open Sys2Proof Sys2Proof.Machine

/-- Settles O29: a command's bytes are a word that decodes to it and the payload that word calls for. -/
theorem decodeOfEncode : Obligations.DecodeOfEncode := fun i _ h =>
  decode_eq_ready.2 ⟨encodeWord i, payloadOf i, rfl, length_payloadOf h, (decodeWord_encodeWord h).symm⟩

/-- Settles O30: each kind of legal word is the number its command encodes to. -/
theorem encodeOfDecode : Obligations.EncodeOfDecode := by
  intro cmd payload i hlen h
  rw [payloadLength_eq] at hlen
  have hpos : cmd.toNat % 2 ^ 48 < 2 ^ 48 := Nat.mod_lt _ (by decide)
  have hwidth : cmd.toNat / 2 ^ 48 % 2 ^ 6 < 2 ^ 6 := Nat.mod_lt _ (by decide)
  rcases decodeWord_eq_command_iff.1 h with ⟨hword, rfl⟩ | ⟨hword, rfl⟩ | ⟨hword, rfl⟩
  · rw [if_neg (by omega)] at hlen
    refine ⟨wf_read_iff.2 ⟨hpos, hwidth⟩, BitVec.eq_of_toNat_eq ?_, (List.length_eq_zero_iff.1 hlen).symm⟩
    rw [toNat_encodeWord_read hpos hwidth]
    omega
  · rw [if_pos (by omega)] at hlen
    refine ⟨wf_construct_iff.2 ⟨hpos, hlen⟩, BitVec.eq_of_toNat_eq ?_, rfl⟩
    rw [toNat_encodeWord_construct hpos]
    omega
  · rw [if_neg (by omega)] at hlen
    exact ⟨rfl, BitVec.eq_of_toNat_eq hword.symm, (List.length_eq_zero_iff.1 hlen).symm⟩

/-- Settles O31: the three masks say of a word's number what makes it legal, and a word without a command is illegal. -/
theorem masksAndFieldsOfCommandWords : Obligations.MasksAndFieldsOfCommandWords := by
  intro cmd payload
  refine ⟨fun h => decodeWord_eq_command_iff.2 (.inl ⟨readMask_iff.1 h, rfl⟩),
    fun h => decodeWord_eq_command_iff.2 (.inr (.inl ⟨constructMask_iff.1 h, rfl⟩)),
    fun h => decodeWord_eq_command_iff.2 (.inr (.inr ⟨destroyMask_iff.1 h, rfl⟩)), fun hread hconstruct hdestroy => ?_⟩
  cases hd : decodeWord cmd payload with
  | illegal why => exact ⟨why, rfl⟩
  | command i =>
    rcases decodeWord_eq_command_iff.1 hd with ⟨h, -⟩ | ⟨h, -⟩ | ⟨h, -⟩
    · exact absurd (readMask_iff.2 h) hread
    · exact absurd (constructMask_iff.2 h) hconstruct
    · exact absurd (destroyMask_iff.2 h) hdestroy

/-- Settles O32: a command's fields do not overlap in its word, so OR-ing them is adding them. -/
theorem encodingOfEachMnemonic : Obligations.EncodingOfEachMnemonic := by
  refine ⟨fun p w h => ?_, fun n bytes h => ?_, by decide⟩
  · rw [encode, encodeWord_read_eq_or h, show 0#64 <<< 62 = 0#64 by decide, BitVec.zero_or]
    exact List.append_nil _
  · rw [encode, encodeWord_construct_eq_or h]
    rfl

/-- Settles O8: the step serves the port, and to carry out a command's transaction is to execute the command. -/
theorem stepRunsTheDecodedCommand : Obligations.StepRunsTheDecodedCommand := by
  intro s i rest hd
  refine ⟨fun hline => ?_, fun line hline => ?_⟩
  · exact (step_of_no_reset hline).trans (serve_of_ready hd)
  · exact (step_of_event hline).trans (serve_of_ready (s := s.setResetLine line) hd)

/-- Settles O33: the decoder run on each of the six lists of bytes. -/
theorem writtenOutWordsDecode : Obligations.WrittenOutWordsDecode := by
  unfold Obligations.WrittenOutWordsDecode
  decide

end

section
/-! PROOF. What a transaction appends to the responses (`30_encoding.md` R58 to R60). -/

namespace Sys2Proof.Machine

/-- CONSTRUCT answers with DATA 0, whatever its STATUS (R60). -/
theorem execConstruct_responds {len : Nat} {payload : List Byte} {s t : State} (h : execConstruct len payload s = .next t) :
    ∃ st, t.outbox = s.outbox ++ [responseWord st 0] := by
  rcases execConstruct_cases h with ⟨-, rfl⟩ | ⟨-, -, rfl⟩ | ⟨-, -, u, hu, rfl⟩
  · exact ⟨_, rfl⟩
  · exact ⟨_, rfl⟩
  · refine ⟨.ok, ?_⟩
    rw [memWriteAll_frame hu]
    rfl

/-- DESTROY answers with DATA 0, whatever its STATUS (R60). -/
theorem execDestroy_responds {s t : State} (h : execDestroy s = .next t) :
    ∃ st, t.outbox = s.outbox ++ [responseWord st 0] := by
  rcases execDestroy_cases h with ⟨-, rfl⟩ | ⟨-, rfl⟩
  · exact ⟨_, rfl⟩
  · exact ⟨_, rfl⟩

/-- A transaction that is answered appends one response word, with DATA 0 except for a READ answered OK. -/
theorem runTransaction_responds {tr : Transaction} {s t : State} (h : runTransaction tr s = .next t) :
    ∃ st d, t.outbox = s.outbox ++ [responseWord st d] ∧
      (d = 0 ∨ (st = .ok ∧ ∃ pos width, tr = .command (.read pos width))) := by
  match tr, h with
  | .illegal _, h =>
    cases h
    exact ⟨_, _, rfl, .inl rfl⟩
  | .command (.read pos width), h =>
    obtain ⟨st, d, rfl, hd⟩ := execRead_frame h
    by_cases hst : st = .ok
    · exact ⟨st, d, rfl, .inr ⟨hst, pos, width, rfl⟩⟩
    · exact ⟨st, d, rfl, .inl (hd hst)⟩
  | .command (.construct _ _), h =>
    obtain ⟨st, hout⟩ := execConstruct_responds h
    exact ⟨st, 0, hout, .inl rfl⟩
  | .command .destroy, h =>
    obtain ⟨st, hout⟩ := execDestroy_responds h
    exact ⟨st, 0, hout, .inl rfl⟩

end Sys2Proof.Machine

open Sys2Proof Sys2Proof.Machine

/-- Settles O27: the word appended is a `responseWord`, whose fields read back, and DATA is not 0 for a READ answered OK only. -/
theorem responsesHaveTheirFormat : Obligations.ResponsesHaveTheirFormat := by
  intro tr s t h
  obtain ⟨st, d, hout, hdata⟩ := runTransaction_responds h
  refine ⟨st, d, responseWord st d, hout, statusField_responseWord st d, responseReserved_responseWord st d,
    dataField_responseWord st d, ?_⟩
  rcases hdata with rfl | ⟨rfl, pos, width, rfl⟩
  · exact ⟨fun _ => rfl, fun _ => rfl, fun _ _ _ => rfl⟩
  · exact ⟨fun hst => absurd rfl hst, nofun, nofun⟩

end

section
/-! PROOF. The assembler line by line (`30_encoding.md` R63 to R65): programs in sequence, programs of one command, and SCAN. -/

namespace Sys2Proof.Machine

/-- Where the lines after a line are followed by more, so are the line and they. -/
theorem asmJoin_map_append {first rest rest' more : Option (List Byte)} {bytes : List Byte}
    (h : asmJoin first rest = some bytes) (hrest : ∀ cs, rest = some cs → rest' = more.map (cs ++ ·)) :
    asmJoin first rest' = more.map (bytes ++ ·) := by
  obtain ⟨bs, cs, rfl, hcs, rfl⟩ := asmJoin_eq_some h
  rw [hrest cs hcs]
  cases more with
  | none => rfl
  | some ds => simp [asmJoin]

/-- A `.cmd` line whose word calls for no payload, whatever lines are behind it: a `.bytes` line there is refused either way. -/
theorem assembleFrom_cmd_of_noPayload {lmax : Nat} {known : Option Nat} {word : Nat} (lines : List AsmLine)
    (hop : opField (BitVec.ofNat 64 word) ≠ 0b01#2) :
    assembleFrom lmax known (.cmd word :: lines) =
      asmJoin (asmRaw word []) (assembleFrom lmax (asmKnownLine lmax known (.cmd word)) lines) := by
  by_cases hb : ∃ ns rest, lines = .bytes ns :: rest
  · obtain ⟨ns, rest, rfl⟩ := hb
    rw [assembleFrom, if_neg hop, assembleFrom]
    cases asmRaw word [] <;> rfl
  · rw [assembleFrom_cmd _ _ _ _ fun ns rest h => hb ⟨ns, rest, h⟩, if_neg hop]

/-- Lines behind lines that assemble: the first ones' bytes, then what the others give from the length known by then. -/
theorem assembleFrom_append {lmax : Nat} {known : Option Nat} {first second : List AsmLine} {bytes : List Byte}
    (h : assembleFrom lmax known first = some bytes) :
    assembleFrom lmax known (first ++ second) =
      (assembleFrom lmax (asmKnownAfter lmax known first) second).map (bytes ++ ·) := by
  fun_induction assembleFrom lmax known first generalizing bytes with
  | case1 known =>
    cases h
    simp [asmKnownAfter]
  | case2 known pos width lines ih => exact asmJoin_map_append h fun _ => ih
  | case4 known len ns lines bs hbs ih =>
    rw [List.cons_append, assembleFrom, hbs]
    exact asmJoin_map_append h fun _ => ih
  | case5 known lines ih => exact asmJoin_map_append h fun _ => ih
  | case7 known word ns lines hop bs hbs ih =>
    rw [List.cons_append, List.cons_append, assembleFrom, if_pos hop, hbs]
    exact asmJoin_map_append h fun _ => ih
  | case10 known word lines _ hop ih =>
    rw [List.cons_append, assembleFrom_cmd_of_noPayload _ hop]
    exact asmJoin_map_append h fun _ => ih
  | case12 known w lines ih => exact asmJoin_map_append h fun _ => ih
  -- The refusals: `h` says that such a program assembles.
  | case3 | case6 | case8 | case9 | case11 => cases h

/-! ## Programs of one command -/

theorem asmCommand_eq (i : Instr) : asmCommand i = if i.WF then some (encode i) else none := rfl

section OneCommand

variable (lmax : Nat)

theorem assemble_read (pos width : Nat) : assemble lmax [.read pos width] = asmCommand (.read pos width) := asmJoin_nil _

theorem assemble_destroy : assemble lmax [.destroy] = some (encode .destroy) := rfl

theorem assemble_construct (len : Nat) (ns : List Nat) :
    assemble lmax [.construct len ns] =
      if ∀ b ∈ ns, b ≤ 255 then asmCommand (.construct len (ns.map (BitVec.ofNat 8))) else none := by
  rw [assemble, assembleFrom, asmBytes_eq]
  split_ifs
  · exact asmJoin_nil _
  · rfl

theorem assemble_cmd (word : Nat) :
    assemble lmax [.cmd word] = if opField (BitVec.ofNat 64 word) = 0b01#2 then none else asmRaw word [] := by
  rw [assemble, assembleFrom_cmd lmax none word [] nofun]
  exact if_congr Iff.rfl rfl (asmJoin_nil _)

theorem assemble_cmd_bytes (word : Nat) (ns : List Nat) :
    assemble lmax [.cmd word, .bytes ns] =
      if opField (BitVec.ofNat 64 word) = 0b01#2 ∧ ∀ b ∈ ns, b ≤ 255 then asmRaw word (ns.map (BitVec.ofNat 8)) else none := by
  rw [assemble, assembleFrom, asmBytes_eq, ite_and]
  split_ifs
  · exact asmJoin_nil _
  · rfl
  · rfl

end OneCommand

/-- OP of a number that fits a command word (R50). -/
theorem opField_ofNat_eq_one_iff {word : Nat} (hword : word < 2 ^ 64) :
    opField (BitVec.ofNat 64 word) = 0b01#2 ↔ word / 2 ^ 62 = 1 := by
  rw [opField_eq_iff, BitVec.toNat_ofNat, Nat.mod_eq_of_lt hword]
  rfl

/-- The payload length that a number which fits a command word calls for (R56). -/
theorem payloadLength_ofNat {word : Nat} (hword : word < 2 ^ 64) :
    payloadLength (BitVec.ofNat 64 word) = if word / 2 ^ 62 = 1 then word % 2 ^ 48 else 0 := by
  rw [payloadLength_eq, BitVec.toNat_ofNat, Nat.mod_eq_of_lt hword]

/-- A `.cmd` line stands alone where its word fits 64 bits and has another OP than `01`. -/
theorem cmd_accepted_iff {word : Nat} :
    opField (BitVec.ofNat 64 word) ≠ 0b01#2 ∧ word < 2 ^ 64 ∧ ([] : List Byte).length = payloadLength (BitVec.ofNat 64 word) ↔
      word < 2 ^ 64 ∧ word / 2 ^ 62 ≠ 1 := by
  constructor
  · rintro ⟨hop, hword, -⟩
    exact ⟨hword, fun h => hop ((opField_ofNat_eq_one_iff hword).2 h)⟩
  · rintro ⟨hword, hop⟩
    refine ⟨fun h => hop ((opField_ofNat_eq_one_iff hword).1 h), hword, ?_⟩
    rw [payloadLength_ofNat hword, if_neg hop]
    rfl

/-- A `.cmd` line takes a payload where its word fits 64 bits, has OP = `01` and calls for that length. -/
theorem cmd_bytes_accepted_iff {word : Nat} {payload : List Byte} :
    opField (BitVec.ofNat 64 word) = 0b01#2 ∧ word < 2 ^ 64 ∧ payload.length = payloadLength (BitVec.ofNat 64 word) ↔
      word < 2 ^ 64 ∧ word / 2 ^ 62 = 1 ∧ payload.length = word % 2 ^ 48 := by
  constructor
  · rintro ⟨hop, hword, hlen⟩
    have hop' := (opField_ofNat_eq_one_iff hword).1 hop
    rw [payloadLength_ofNat hword, if_pos hop'] at hlen
    exact ⟨hword, hop', hlen⟩
  · rintro ⟨hword, hop, hlen⟩
    refine ⟨(opField_ofNat_eq_one_iff hword).2 hop, hword, ?_⟩
    rw [payloadLength_ofNat hword, if_pos hop]
    exact hlen

end Sys2Proof.Machine

open Sys2Proof Sys2Proof.Machine

/-- Settles O41, by induction along the assembler's own recursion. -/
theorem assembledLinesConcatenate : Obligations.AssembledLinesConcatenate := fun _ _ _ _ _ => assembleFrom_append

/-- Settles O42: a program of one SCAN line is that line's expansion. -/
theorem scanLineExpandsIntoReads : Obligations.ScanLineExpandsIntoReads := by
  refine fun lmax w => ⟨fun len => ?_, rfl⟩
  rw [assembleFrom, assembleFrom, asmJoin_nil, asmScan, scanReads, List.flatMap_map]

/-- Settles O34: each program is its one line's bytes, under the condition that line's helper checks. -/
theorem assemblerRefusesWhatItMust : Obligations.AssemblerRefusesWhatItMust := by
  refine fun lmax => ⟨fun p w => ?_, fun n ns => ?_, assemble_destroy lmax, fun w => ?_, fun w ns => ?_, fun ns => rfl⟩
  · rw [assemble_read, asmCommand_eq]
    exact if_congr wf_read_iff rfl rfl
  · rw [assemble_construct, asmCommand_eq, ← ite_and]
    refine if_congr ?_ rfl rfl
    rw [wf_construct_iff, List.length_map, and_comm, and_assoc]
  · rw [assemble_cmd, ← ite_not, asmRaw, ← ite_and, List.append_nil]
    exact if_congr cmd_accepted_iff rfl rfl
  · rw [assemble_cmd_bytes, asmRaw, ← ite_and]
    refine if_congr ?_ rfl rfl
    rw [and_right_comm, cmd_bytes_accepted_iff, List.length_map, and_assoc, and_assoc]

end

section
/-! PROOF. READ as its checks and its bit sum (`40_read.md` R68 to R79): what the field is in the buffer's bits and bytes, and what
READ answers inside and outside its checks. -/

namespace Sys2Proof.Machine

/-- R75: the field is the sum of its bits by their places. -/
theorem fieldAt_eq_sum (s : State) (pos width : Nat) :
    fieldAt s pos width = ∑ k ∈ Finset.range width, bufferBit s (pos + k) * 2 ^ (width - 1 - k) := by
  induction width with
  | zero => rw [fieldAt_zero, Finset.sum_range_zero]
  | succ width ih =>
    have hplaces : 2 * ∑ k ∈ Finset.range width, bufferBit s (pos + k) * 2 ^ (width - 1 - k) =
        ∑ k ∈ Finset.range width, bufferBit s (pos + k) * 2 ^ (width - k) := by
      rw [Finset.mul_sum]
      refine Finset.sum_congr rfl fun k hk => ?_
      have hk := Finset.mem_range.1 hk
      rw [mul_left_comm, ← pow_succ', show width - 1 - k + 1 = width - k by omega]
    rw [fieldAt_succ, ih, hplaces, Finset.sum_range_succ, Nat.add_sub_cancel, Nat.sub_self, pow_zero, mul_one]

/-- R79: the mask keeps the field below 2^WIDTH. -/
theorem fieldAt_lt (s : State) (pos width : Nat) : fieldAt s pos width < 2 ^ width := extractField_lt _ pos width

/-- R79: the field is a function of the bytes its span touches. -/
theorem fieldAt_congr {s t : State} {pos width : Nat}
    (h : ∀ j < spanBytes pos width, s.buf.readByte (startByte pos + j) = t.buf.readByte (startByte pos + j)) :
    fieldAt s pos width = fieldAt t pos width := by
  rw [fieldAt, fieldAt, Memory.readBig_congr h]

/-- R72: a legal width touches 1 to 5 bytes. -/
theorem spanBytes_bounds {pos width : Nat} (hw : 1 ≤ width) (hmax : width ≤ Config.maxWidth) :
    1 ≤ spanBytes pos width ∧ spanBytes pos width ≤ Config.maxSpanBytes := by
  have hmax : width ≤ 32 := hmax
  show 1 ≤ spanBytes pos width ∧ spanBytes pos width ≤ 5
  rw [spanBytes_eq]
  omega

/-- R38: the fifth byte is touched when the bits before the span in its first byte leave no room for it in four. -/
theorem spanBytes_eq_five_iff {pos width : Nat} (hmax : width ≤ Config.maxWidth) :
    spanBytes pos width = 5 ↔ 33 ≤ pos % 8 + width := by
  have hmax : width ≤ 32 := hmax
  rw [spanBytes_eq]
  omega

end Sys2Proof.Machine

open Sys2Proof Sys2Proof.Machine

/-- Settles O12: the READ answers with its field, which is the sum of its bits. -/
theorem readReturnsTheBitSum : Obligations.ReadReturnsTheBitSum := by
  intro s pos width hv hw hmax hr
  obtain ⟨d, hread, hd⟩ := exec_read_returns_fieldAt hv hw hmax hr
  exact ⟨d, hread, hd.trans (fieldAt_eq_sum s pos width), hd ▸ fieldAt_lt s pos width⟩

/-- Settles O16: a READ has one answer for a given V, LEN and BUF. -/
theorem readIsPure : Obligations.ReadIsPure := by
  intro s pos width
  obtain ⟨rsp, hrsp⟩ := execRead_answers_alike pos width s
  exact ⟨rsp, fun t hv hlen hbuf => hrsp t ⟨hv, hlen, hbuf⟩⟩

/-- Settles O17: both READs answer with their fields, which agree because their bytes do. -/
theorem readDependsOnItsSpanOnly : Obligations.ReadDependsOnItsSpanOnly := by
  intro s t pos width hsv htv hw hmax hsr htr hbytes
  obtain ⟨d, hs, hd⟩ := exec_read_returns_fieldAt hsv hw hmax hsr
  obtain ⟨e, ht, he⟩ := exec_read_returns_fieldAt htv hw hmax htr
  obtain rfl : d = e := BitVec.eq_of_toNat_eq (by rw [hd, he, fieldAt_congr hbytes])
  exact ⟨d, hs, ht, hd ▸ fieldAt_lt s pos width, Nat.pow_le_pow_right (by decide) hmax⟩

/-- Settles O13: b, o and n are their formulas, and the bytes b to b + n - 1 lie below LEN. -/
theorem readTouchesOnlyTheBuffer : Obligations.ReadTouchesOnlyTheBuffer := by
  intro s pos width hw hmax hr
  obtain ⟨hone, hfive⟩ := spanBytes_bounds (pos := pos) hw hmax
  have hspan := startByte_add_spanBytes_le (s := s) hr
  exact ⟨rfl, rfl, spanBytes_eq pos width, hone, hfive, hspan, ⟨_, memRead_eq_some.2 ⟨hspan, rfl⟩⟩,
    spanBytes_eq_five_iff hmax⟩

/-- Settles O14: the width check comes before the range check. -/
theorem readChecksTheWidth : Obligations.ReadChecksTheWidth := fun _ _ _ hv hw => execRead_of_badWidth hv hw

/-- Settles O15: with a legal width the range check alone decides, on exact naturals. -/
theorem readChecksTheRange : Obligations.ReadChecksTheRange := by
  intro s pos width hv hw hmax
  have hwidth : ¬ (width = 0 ∨ width > Config.maxWidth) := not_or.2 ⟨by omega, hmax.not_gt⟩
  refine ⟨fun hr => execRead_of_badRange hv hwidth hr, fun hr => ?_⟩
  obtain ⟨d, hread, -⟩ := exec_read_returns_fieldAt hv hw hmax hr
  exact ⟨_, _, hread, rfl, statusField_responseWord .ok d⟩

end

section
/-! PROOF. The lifecycle (`41_lifecycle.md` R82 to R89): what CONSTRUCT, READ and DESTROY answer in each lifecycle state, and that an
illegal word is answered and nothing else. -/

namespace Sys2Proof.Machine

/-- A CONSTRUCT that passes its checks writes its payload, then LEN and V, and answers OK (R82). -/
theorem execConstruct_of_memWriteAll {len : Nat} {payload : List Byte} {s u : State} (hv : s.v = .empty) (hcap : len ≤ s.lmax)
    (hu : memWriteAll s 0 payload = some u) :
    execConstruct len payload s = .next (((u.setLen (BitVec.ofNat 48 len)).setV .loaded).push (responseWord .ok 0)) := by
  rw [execConstruct, if_neg (by simp [hv]), if_neg hcap.not_gt, hu]
  rfl

/-- READ's row of R88 while LOADED: one response, with one of three statuses. -/
theorem execRead_of_loaded {s : State} (pos width : Nat) (hv : s.v = .loaded) :
    ∃ st d, execRead pos width s = .next (s.push (responseWord st d)) ∧
      (st = .ok ∨ st = .invalidWidth ∨ st = .outOfRange) := by
  by_cases hw : width = 0 ∨ width > Config.maxWidth
  · exact ⟨_, _, execRead_of_badWidth hv hw, .inr (.inl rfl)⟩
  · by_cases hr : pos + width > total s
    · exact ⟨_, _, execRead_of_badRange hv hw hr, .inr (.inr rfl)⟩
    · exact ⟨_, _, execRead_of_inRange hv (by omega) (by omega) (by omega), .inl rfl⟩

/-- The four kinds of illegal word (R51 to R54), each by the check of the decoder that finds it. -/
theorem decodeWord_illegal {cmd : Word} (payload : List Byte)
    (h : opField cmd = 0b11#2 ∨ (opField cmd = 0b00#2 ∧ readReserved cmd ≠ 0) ∨
      (opField cmd = 0b01#2 ∧ constructReserved cmd ≠ 0) ∨ (opField cmd = 0b10#2 ∧ destroyReserved cmd ≠ 0)) :
    ∃ why, decodeWord cmd payload = .illegal why := by
  rcases h with hop | ⟨hop, hreserved⟩ | ⟨hop, hreserved⟩ | ⟨hop, hreserved⟩
  · exact ⟨.reservedOpcode, by simp [decodeWord, hop]⟩
  · exact ⟨.readReservedField, by simpa [decodeWord, hop] using hreserved⟩
  · exact ⟨.constructReservedField, by simpa [decodeWord, hop] using hreserved⟩
  · exact ⟨.destroyReservedField, by simpa [decodeWord, hop] using hreserved⟩

/-- With no reset event, the step that finds an illegal word takes its bytes and answers it, whatever V is (R89). -/
theorem step_of_illegal {s : State} {why : IllegalReason} {rest : List Byte} (hline : s.resetLine = [])
    (hd : decode s.inbox = .ready (.illegal why) rest) :
    step s = .next ((s.setInbox rest).push (responseWord .illegalCommand 0)) :=
  (step_of_no_reset hline).trans (serve_of_ready hd)

end Sys2Proof.Machine

open Sys2Proof Sys2Proof.Machine

/-- Settles O21: what `memWriteAll_spec` says of the payload written from byte 0. -/
theorem constructLoadsThePayload : Obligations.ConstructLoadsThePayload := by
  intro s L payload hbuf hwf hv hcap
  obtain ⟨hL, hlen⟩ := wf_construct_iff.1 hwf
  obtain ⟨m, hm, -, hread⟩ := memWriteAll_spec s 0 payload (by omega)
  obtain ⟨hmwf, hout, hat⟩ := hread hbuf
  refine ⟨m, BitVec.ofNat 48 L, execConstruct_of_memWriteAll hv hcap hm, Nat.mod_eq_of_lt hL, hmwf, fun k hk => ?_,
    fun a ha => hout a (.inr (by omega))⟩
  rw [← hat k hk, Nat.zero_add]

/-- Settles O22: the capacity check comes before the payload is written. -/
theorem constructChecksTheCapacity : Obligations.ConstructChecksTheCapacity := fun _ _ _ hv hcap =>
  execConstruct_of_tooLong hv hcap

/-- Settles O24: DESTROY writes V alone, so the state it leaves is an EMPTY one of the same capacity. -/
theorem destroyEmptiesTheBlock : Obligations.DestroyEmptiesTheBlock := by
  intro s hv
  refine ⟨_, execDestroy_of_loaded hv, rfl, execDestroy_of_empty rfl, fun L payload hwf hcap => ?_⟩
  obtain ⟨-, hlen⟩ := wf_construct_iff.1 hwf
  obtain ⟨m, hm, -⟩ := execConstruct_of_fits (s := (s.setV .empty).push (responseWord .ok 0)) rfl hcap hlen
  exact ⟨_, hm, rfl⟩

/-- Settles O25, row by row: the command, then V, then the check that decides. -/
theorem lifecycleTransitions : Obligations.LifecycleTransitions := by
  refine ⟨fun s L payload hwf => ?_, fun s pos width => ?_, fun s => ?_, fun s why rest hline hd => ?_,
    fun s line hline => ?_⟩
  · obtain ⟨-, hlen⟩ := wf_construct_iff.1 hwf
    cases hv : s.v with
    | loaded => exact ⟨_, _, execConstruct_of_loaded hv, rfl, nofun, nofun, fun _ => ⟨rfl, hv⟩⟩
    | empty =>
      by_cases hcap : s.lmax < L
      · exact ⟨_, _, execConstruct_of_tooLong hv hcap, rfl, fun _ h => absurd hcap h.not_gt, fun _ _ => ⟨rfl, hv⟩, nofun⟩
      · obtain ⟨m, hm, -⟩ := execConstruct_of_fits hv (by omega) hlen
        exact ⟨_, _, hm, rfl, fun _ _ => ⟨rfl, rfl⟩, fun _ h => absurd h hcap, nofun⟩
  · cases hv : s.v with
    | empty => exact ⟨_, _, _, execRead_of_empty hv, rfl, hv, fun _ => rfl, nofun⟩
    | loaded =>
      obtain ⟨st, d, hread, hst⟩ := execRead_of_loaded pos width hv
      exact ⟨_, st, d, hread, rfl, hv, nofun, fun _ => hst⟩
  · cases hv : s.v with
    | empty => exact ⟨_, _, execDestroy_of_empty hv, rfl, hv, fun _ => rfl, nofun⟩
    | loaded => exact ⟨_, _, execDestroy_of_loaded hv, rfl, rfl, nofun, fun _ => rfl⟩
  · exact ⟨_, step_of_illegal hline hd, rfl, rfl⟩
  · exact ⟨_, step_of_event hline, rfl, rfl⟩

/-- Settles O26: the word is a whole transaction with the payload it calls for, and its kind of illegality is one the decoder
names. -/
theorem illegalWordsAreAnswered : Obligations.IllegalWordsAreAnswered := by
  intro s cmd payload rest hline hport hlen hkind
  obtain ⟨why, hwhy⟩ := decodeWord_illegal payload hkind
  exact step_of_illegal hline (decode_eq_ready.2 ⟨cmd, payload, hport, hlen, hwhy.symm⟩)

end

section
/-! PROOF. A scan pass alone (`42_scan.md` R94 to R98): its loop by iterations, the pass over a loaded buffer, and the errors that
abort it. -/

namespace Sys2Proof.Machine

/-! ## Passes inside the buffer -/

/-- The word that answers a READ which passes its checks (R73, R74). -/
def readAnswer (s : State) (pos width : Nat) : Word := responseWord .ok (zext48 (fieldAt s pos width))

/-- The words that answer the first `n` READs of a pass of width `w` inside the buffer. -/
def passAnswers (s : State) (w n : Nat) : List Word := (List.range n).map fun k => readAnswer s (k * w) w

/-- The pass after its first `n` READs, all inside the buffer. -/
def passAfter (s : State) (w n : Nat) : HostPass := { pos := n * w, sum := checksum (passAnswers s w n) }

/-- Several more responses to the host. -/
def State.pushAll (s : State) (rsps : List Word) : State := { s with outbox := s.outbox ++ rsps }

theorem State.pushAll_nil (s : State) : s.pushAll [] = s := by rw [State.pushAll, List.append_nil]

theorem State.push_pushAll (s : State) (rsps : List Word) (rsp : Word) :
    (s.pushAll rsps).push rsp = s.pushAll (rsps ++ [rsp]) := by
  rw [State.pushAll, State.pushAll, ← List.append_assoc]
  rfl

/-- A READ that passes the three checks changes nothing but the responses. -/
theorem execRead_eq_readAnswer {s : State} {pos width : Nat} (hv : s.v = .loaded) (hw : 1 ≤ width)
    (hmax : width ≤ Config.maxWidth) (hr : pos + width ≤ total s) :
    execRead pos width s = .next (s.push (readAnswer s pos width)) := execRead_of_inRange hv hw hmax hr

theorem statusField_readAnswer (s : State) (pos width : Nat) : statusField (readAnswer s pos width) = Status.ok.code :=
  statusField_responseWord _ _

theorem toNat_resultField_readAnswer (s : State) (pos width : Nat) :
    (resultField (readAnswer s pos width)).toNat = fieldAt s pos width % 2 ^ 32 := by
  rw [readAnswer, toNat_resultField_responseWord, zext48, BitVec.toNat_ofNat]
  omega

theorem length_passAnswers (s : State) (w n : Nat) : (passAnswers s w n).length = n := by
  rw [passAnswers, List.length_map, List.length_range]

theorem passAnswers_succ (s : State) (w n : Nat) : passAnswers s w (n + 1) = passAnswers s w n ++ [readAnswer s (n * w) w] := by
  rw [passAnswers, List.range_succ, List.map_append]
  rfl

theorem statusField_of_mem_passAnswers {s : State} {w n : Nat} {rsp : Word} (h : rsp ∈ passAnswers s w n) :
    statusField rsp = Status.ok.code := by
  obtain ⟨k, -, rfl⟩ := List.mem_map.1 h
  exact statusField_readAnswer s (k * w) w

theorem checksum_concat (rsps : List Word) (rsp : Word) : checksum (rsps ++ [rsp]) = checksum rsps + resultField rsp := by
  rw [checksum, List.foldl_concat, checksum]

/-- R96: the checksum is the sum of the fields, modulo 2^32. -/
theorem toNat_checksum_passAnswers (s : State) (w n : Nat) :
    (checksum (passAnswers s w n)).toNat = (∑ k ∈ Finset.range n, fieldAt s (k * w) w) % 2 ^ 32 := by
  induction n with
  | zero => rfl
  | succ n ih =>
    rw [passAnswers_succ, checksum_concat, BitVec.toNat_add, ih, toNat_resultField_readAnswer, Finset.sum_range_succ,
      ← Nat.add_mod]

theorem passAfter_zero (s : State) (w : Nat) : passAfter s w 0 = HostPass.start := by rw [passAfter, Nat.zero_mul]; rfl

theorem advance_passAfter (s : State) (w n : Nat) :
    (passAfter s w n).advance w (readAnswer s (n * w) w) = passAfter s w (n + 1) := by
  rw [passAfter, passAfter, passAnswers_succ, checksum_concat, Nat.succ_mul]
  rfl

/-! ## The loop -/

section Loop

variable {fuel w bits : Nat} {p q : HostPass} {s t : State}

theorem scanLoop_succ_of_next (hpre : p.pos + w ≤ bits) (h : scanIteration w p s = .next (t, q)) :
    scanLoop (fuel + 1) w bits p s = scanLoop fuel w bits q t := by
  simp only [scanLoop, if_pos hpre, h]

theorem scanLoop_succ_of_fault {r : Fault} (hpre : p.pos + w ≤ bits) (h : scanIteration w p s = .fault r) :
    scanLoop (fuel + 1) w bits p s = .fault r := by
  simp only [scanLoop, if_pos hpre, h]

/-- R95: the pre-check ends the pass. -/
theorem scanLoop_succ_of_done (hpre : bits < p.pos + w) : scanLoop (fuel + 1) w bits p s = .next (s, p) := by
  rw [scanLoop, if_neg hpre.not_ge]

/-- A loop that comes to an end was ended by its pre-check, or made an iteration. -/
theorem scanLoop_succ_eq_next (h : scanLoop (fuel + 1) w bits p s = .next (t, q)) :
    (s = t ∧ p = q) ∨ ∃ u r, scanIteration w p s = .next (u, r) ∧ scanLoop fuel w bits r u = .next (t, q) := by
  rw [scanLoop] at h
  split at h
  · split at h
    · exact .inr ⟨_, _, ‹_›, h⟩
    · cases h
    · cases h
  · cases h; exact .inl ⟨rfl, rfl⟩

theorem scanIteration_of_inRange (hv : s.v = .loaded) (hw : 1 ≤ w) (hmax : w ≤ Config.maxWidth) (hr : p.pos + w ≤ total s) :
    scanIteration w p s = .next (s.push (readAnswer s p.pos w), p.advance w (readAnswer s p.pos w)) :=
  (scanIteration_of_answer (execRead_eq_readAnswer hv hw hmax hr)).trans (if_pos (statusField_readAnswer s p.pos w))

/-- R98: a READ that is not answered OK aborts the pass. -/
theorem scanIteration_of_error {st : Status} (hst : st ≠ .ok)
    (h : execRead p.pos w s = .next (s.push (responseWord st 0))) : scanIteration w p s = .fault (.scanAborted (some st)) := by
  have hcode : st.code ≠ Status.ok.code := mt code_eq_zero.1 hst
  rw [scanIteration_of_answer h, statusField_responseWord, if_neg hcode, ofCode_code]

/-- An iteration that does not abort got one response, and it was OK. -/
theorem scanIteration_eq_next (h : scanIteration w p s = .next (t, q)) :
    ∃ rsp, t = s.push rsp ∧ statusField rsp = Status.ok.code := by
  obtain ⟨rsp, hrsp⟩ := execRead_answers_alike p.pos w s
  rw [scanIteration_of_answer (hrsp s (.refl s))] at h
  split at h
  · cases h; exact ⟨rsp, rfl, ‹_›⟩
  · cases h

/-- A pass that comes to an end got OK responses only (R98). -/
theorem scanLoop_responses_ok (h : scanLoop fuel w bits p s = .next (t, q)) :
    ∃ rsps, t.outbox = s.outbox ++ rsps ∧ ∀ r ∈ rsps, statusField r = Status.ok.code := by
  induction fuel generalizing p s with
  | zero => cases h; exact ⟨[], (List.append_nil _).symm, nofun⟩
  | succ fuel ih =>
    rcases scanLoop_succ_eq_next h with ⟨rfl, rfl⟩ | ⟨u, r, hiter, hrest⟩
    · exact ⟨[], (List.append_nil _).symm, nofun⟩
    · obtain ⟨rsp, rfl, hok⟩ := scanIteration_eq_next hiter
      obtain ⟨rsps, hout, hall⟩ := ih hrest
      exact ⟨rsp :: rsps, by rw [hout, State.push_outbox, List.append_assoc]; rfl, List.forall_mem_cons.2 ⟨hok, hall⟩⟩

/-- The first `n` iterations of a pass whose first `n` READs lie inside the buffer. -/
theorem scanLoop_start {n : Nat} (hv : s.v = .loaded) (hw : 1 ≤ w) (hmax : w ≤ Config.maxWidth) (hr : n * w ≤ total s)
    (hbits : n * w ≤ bits) :
    scanLoop (fuel + n) w bits .start s = scanLoop fuel w bits (passAfter s w n) (s.pushAll (passAnswers s w n)) := by
  induction n generalizing fuel with
  | zero => rw [passAfter_zero, passAnswers, List.range_zero, List.map_nil, State.pushAll_nil, Nat.add_zero]
  | succ n ih =>
    rw [Nat.succ_mul] at hr hbits
    have hiter := scanIteration_of_inRange (s := s.pushAll (passAnswers s w n)) (p := passAfter s w n) hv hw hmax hr
    rw [show fuel + (n + 1) = fuel + 1 + n by omega, ih (by omega) (by omega), scanLoop_succ_of_next hbits hiter,
      State.push_pushAll, ← advance_passAfter, passAnswers_succ]
    rfl

/-- A pass whose first READ is in error (R98). -/
theorem scan_of_first_error {st : Status} (hpre : w ≤ bits) (hst : st ≠ .ok)
    (h : execRead 0 w s = .next (s.push (responseWord st 0))) : scan w bits s = .fault (.scanAborted (some st)) :=
  scanLoop_succ_of_fault (p := .start) ((Nat.zero_add w).trans_le hpre) (scanIteration_of_error hst h)

end Loop

/-- A pass over the whole of a loaded buffer (R94, R97). -/
theorem scan_of_loaded {w : Nat} {s : State} (hv : s.v = .loaded) (hw : 1 ≤ w) (hmax : w ≤ Config.maxWidth) :
    scan w (total s) s = .next (s.pushAll (passAnswers s w (total s / w)), passAfter s w (total s / w)) := by
  have hle : total s / w * w ≤ total s := Nat.div_mul_le_self _ _
  have hend : total s < total s / w * w + w := Nat.lt_div_mul_add hw
  rw [scan, Nat.add_comm, scanLoop_start hv hw hmax hle hle]
  exact scanLoop_succ_of_done hend

/-- A pass that goes past the end of the buffer is aborted by the first READ that does (R71, R98). -/
theorem scan_of_pastEnd {w bits : Nat} {s : State} (hv : s.v = .loaded) (hw : 1 ≤ w) (hmax : w ≤ Config.maxWidth)
    (hbits : total s < bits / w * w) : scan w bits s = .fault (.scanAborted (some .outOfRange)) := by
  have hle : total s / w * w ≤ total s := Nat.div_mul_le_self _ _
  have hend : total s < total s / w * w + w := Nat.lt_div_mul_add hw
  have hlt : total s / w + 1 ≤ bits / w := Nat.div_lt_of_lt_mul (by rwa [mul_comm])
  have hnext : total s / w * w + w ≤ bits := calc
    total s / w * w + w = (total s / w + 1) * w := (Nat.succ_mul _ _).symm
    _ ≤ bits / w * w := Nat.mul_le_mul_right w hlt
    _ ≤ bits := Nat.div_mul_le_self _ _
  obtain ⟨fuel, hfuel⟩ : ∃ fuel, bits / w + 1 = fuel + 1 + total s / w := ⟨bits / w - total s / w, by omega⟩
  rw [scan, hfuel, scanLoop_start hv hw hmax hle (by omega)]
  exact scanLoop_succ_of_fault hnext (scanIteration_of_error nofun (execRead_of_badRange hv (by omega) hend))

end Sys2Proof.Machine

open Sys2Proof Sys2Proof.Machine

/-- Settles O37: the pass over the whole buffer, with each field written as its bit sum. -/
theorem scanSumsThePass : Obligations.ScanSumsThePass := by
  intro s w hv hw hmax
  refine ⟨_, _, scan_of_loaded hv hw hmax, length_passAnswers .., fun r hr => statusField_of_mem_passAnswers hr, rfl, ?_⟩
  simp only [← fieldAt_eq_sum]
  exact toNat_checksum_passAnswers s w _

/-- Settles O38: the first READ, or the first one past the end, is in error; the pass over the whole buffer has none. -/
theorem scanAbortsOnAnError : Obligations.ScanAbortsOnAnError := by
  intro s w bits hpre
  refine ⟨fun hv => scan_of_first_error hpre nofun (execRead_of_empty hv),
    fun hv hw => scan_of_first_error hpre nofun (execRead_of_badWidth hv hw),
    fun hv hw hmax hbits => scan_of_pastEnd hv hw hmax hbits,
    fun hv hw hmax hbits => ?_, fun t p h => ?_⟩
  · subst hbits
    exact ⟨_, _, scan_of_loaded hv hw hmax⟩
  · obtain ⟨rsps, hout, hok⟩ := scanLoop_responses_ok h
    rw [hout, List.drop_left]
    exact hok

end

section
/-! PROOF. A scan pass as its READs on the port (`42_scan.md` R94, `30_encoding.md` R65). -/

namespace Sys2Proof.Machine

theorem length_scanReads (w bits : Nat) : (scanReads w bits).length = bits / w := by
  rw [scanReads, List.length_map, List.length_range]

theorem mem_scanReads {w bits : Nat} {i : Instr} (h : i ∈ scanReads w bits) :
    ∃ k, k * w + w ≤ bits ∧ i = .read (k * w) w := by
  obtain ⟨k, hk, rfl⟩ := List.mem_map.1 h
  refine ⟨k, ?_, rfl⟩
  calc k * w + w = (k + 1) * w := (Nat.succ_mul _ _).symm
    _ ≤ bits / w * w := Nat.mul_le_mul_right w (List.mem_range.1 hk)
    _ ≤ bits := Nat.div_mul_le_self _ _

/-- R28 and R8: positions in a loaded buffer fit the 48-bit field. -/
theorem total_le_of_inv {s : State} (hs : s.Inv) (hv : s.v = .loaded) : total s ≤ 2 ^ 48 := by
  obtain ⟨⟨-, hlmax⟩, -, -, hlen, -⟩ := hs
  calc total s ≤ 8 * s.lmax := Nat.mul_le_mul_left 8 (hlen hv)
    _ ≤ 8 * 2 ^ 45 := Nat.mul_le_mul_left 8 hlmax
    _ = 2 ^ 48 := by norm_num

/-- The READs of a pass over a loaded buffer can be written down. -/
theorem wf_of_mem_scanReads {s : State} {w : Nat} (hs : s.Inv) (hv : s.v = .loaded) (hw : 1 ≤ w) (hmax : w ≤ Config.maxWidth)
    {i : Instr} (hi : i ∈ scanReads w (total s)) : i.WF ∧ ∃ pos width, i = .read pos width := by
  obtain ⟨k, hk, rfl⟩ := mem_scanReads hi
  have htotal := total_le_of_inv hs hv
  have hmax : w ≤ 32 := hmax
  exact ⟨wf_read_iff.2 ⟨by omega, by omega⟩, _, _, rfl⟩

/-- Whatever answers each READ, it answers those inside the buffer with their fields. -/
theorem map_scanReads {s : State} {w : Nat} {answer : Instr → Word} (hanswer : ∀ i, AnswersRead s i (answer i))
    (hv : s.v = .loaded) (hw : 1 ≤ w) (hmax : w ≤ Config.maxWidth) :
    (scanReads w (total s)).map answer = passAnswers s w (total s / w) := by
  rw [passAnswers, scanReads, List.map_map]
  refine List.map_congr_left fun k hk => ?_
  obtain ⟨j, hj, hread⟩ := mem_scanReads (List.mem_map_of_mem hk)
  obtain ⟨hkj, -⟩ := Instr.read.inj hread
  have hok := execRead_eq_readAnswer (pos := k * w) hv hw hmax (hkj ▸ hj)
  have hsame := (hanswer (.read (k * w) w) _ _ rfl s (.refl s)).symm.trans hok
  simpa [State.push] using hsame

/-- The READs of a pass, sent on the port, are answered as in the pass, and change nothing else. -/
theorem run_scanReads {s : State} {w : Nat} {rest : List Byte} (hs : s.Inv) (hv : s.v = .loaded) (hw : 1 ≤ w)
    (hmax : w ≤ Config.maxWidth) (hline : s.resetLine = []) (hport : s.inbox = (scanReads w (total s)).flatMap encode ++ rest) :
    core.run (total s / w) s = .next ((s.pushAll (passAnswers s w (total s / w))).setInbox rest) := by
  choose answer hanswer using exists_answersRead s
  have hrun := run_reads hanswer (fun i hi => wf_of_mem_scanReads hs hv hw hmax hi) (.refl s) hline hport
  rw [length_scanReads, map_scanReads hanswer hv hw hmax] at hrun
  exact hrun

end Sys2Proof.Machine

open Sys2Proof Sys2Proof.Machine

/-- Settles O39: the port answers the READs with the words the pass gets. -/
theorem scanIsItsCommandSequence : Obligations.ScanIsItsCommandSequence := by
  intro s w rest hs hv hw hmax hline hport
  exact ⟨_, _, run_scanReads hs hv hw hmax hline hport, scan_of_loaded hv hw hmax, rfl⟩

end

section
/-! PROOF. Runs of assembled programs (`30_encoding.md` R63, `41_lifecycle.md` R88, `42_scan.md` R92): line by line, the block takes
the line's bytes and has the buffer length the assembler then knows. -/

namespace Sys2Proof.Machine

theorem run_add {n : Nat} {s t : State} (h : core.run n s = .next t) (m : Nat) : core.run (n + m) s = core.run m t := by
  induction n generalizing s with
  | zero => cases h; rw [Nat.zero_add]
  | succ n ih =>
    match hs : step s with
    | .next u => rw [Nat.succ_add, run_succ_of_next hs, ih (run_succ_of_next hs ▸ h)]
    | .fault r => cases (run_succ_of_fault hs).symm.trans h
    | .refused r => cases (run_succ_of_refused hs).symm.trans h

theorem State.Inv.run {n : Nat} {s t : State} (hs : s.Inv) (h : core.run n s = .next t) : t.Inv := by
  induction n generalizing s with
  | zero => cases h; exact hs
  | succ n ih =>
    match hu : step s with
    | .next u => exact ih (stepKeepsInvariant s u hs hu) (run_succ_of_next hu ▸ h)
    | .fault r => cases (run_succ_of_fault hu).symm.trans h
    | .refused r => cases (run_succ_of_refused hu).symm.trans h

/-- `n` steps, one response each, take `s` to `t` with `rest` left on the port, and no reset. -/
structure RunsTo (n : Nat) (s t : State) (rest : List Byte) : Prop where
  run : core.run n s = .next t
  inbox : t.inbox = rest
  resetLine : t.resetLine = []
  lmax : t.lmax = s.lmax
  responses : t.outbox.length = s.outbox.length + n

theorem RunsTo.trans {n m : Nat} {s t u : State} {rest rest' : List Byte} (h : RunsTo n s t rest) (h' : RunsTo m t u rest') :
    RunsTo (n + m) s u rest' where
  run := (run_add h.run m).trans h'.run
  inbox := h'.inbox
  resetLine := h'.resetLine
  lmax := h'.lmax.trans h.lmax
  responses := by rw [h'.responses, h.responses, Nat.add_assoc]

theorem runTransaction_inbox {tr : Transaction} {s t : State} (h : runTransaction tr s = .next t) : t.inbox = s.inbox := by
  rcases runTransaction_cases h with ⟨_, rfl⟩ | ⟨-, -, rfl⟩ | ⟨_, _, _, -, -, -, rfl⟩ <;> rfl

/-- With no reset event, a whole transaction on the port is one step. -/
theorem runsTo_of_decode {s : State} {tr : Transaction} {rest : List Byte} (hline : s.resetLine = [])
    (hd : decode s.inbox = .ready tr rest) :
    ∃ t, RunsTo 1 s t rest ∧ loadedLength t = asmKnown s.lmax (loadedLength s) tr := by
  obtain ⟨t, ht⟩ := runTransaction_answers hd (s.setInbox rest)
  obtain ⟨hlmax, hline'⟩ := runTransaction_frame ht
  obtain ⟨_, _, hout, -⟩ := runTransaction_responds ht
  have hstep : step s = .next t := (step_of_no_reset hline).trans ((serve_of_ready hd).trans ht)
  refine ⟨t, ⟨run_succ_of_next hstep, runTransaction_inbox ht, hline'.trans hline, hlmax, by rw [hout]; simp⟩, ?_⟩
  exact loadedLength_of_runTransaction (s := s.setInbox rest) (fun _ _ htr => (payload_length_of_decode (htr ▸ hd)).2) ht

/-- Sent to any block of capacity `lmax` whose buffer length is `known`, the bytes run to their last one and leave a block whose
buffer length is `known'`. -/
def LeadsTo (lmax : Nat) (known : Option Nat) (bytes : List Byte) (known' : Option Nat) : Prop :=
  ∀ (s : State) (rest : List Byte), s.Inv → s.resetLine = [] → s.lmax = lmax → loadedLength s = known →
    s.inbox = bytes ++ rest → ∃ n t, RunsTo n s t rest ∧ loadedLength t = known'

section Lines

variable {lmax : Nat} {known known' known'' : Option Nat} {bytes bytes' : List Byte}

theorem LeadsTo.nil : LeadsTo lmax known [] known := fun s _ _ hline _ hknown hport =>
  ⟨0, s, ⟨rfl, hport, hline, rfl, rfl⟩, hknown⟩

theorem LeadsTo.append (h : LeadsTo lmax known bytes known') (h' : LeadsTo lmax known' bytes' known'') :
    LeadsTo lmax known (bytes ++ bytes') known'' := by
  intro s rest hs hline hlmax hknown hport
  obtain ⟨n, t, hst, ht⟩ := h s (bytes' ++ rest) hs hline hlmax hknown (hport.trans (List.append_assoc ..))
  obtain ⟨m, u, htu, hu⟩ := h' t rest (hs.run hst.run) hst.resetLine (hst.lmax.trans hlmax) ht hst.inbox
  exact ⟨n + m, u, hst.trans htu, hu⟩

theorem LeadsTo.join {first rest : Option (List Byte)} (h : asmJoin first rest = some bytes)
    (hfirst : ∀ bs, first = some bs → LeadsTo lmax known bs known')
    (hrest : ∀ cs, rest = some cs → LeadsTo lmax known' cs known'') : LeadsTo lmax known bytes known'' := by
  obtain ⟨bs, cs, hbs, hcs, rfl⟩ := asmJoin_eq_some h
  exact (hfirst bs hbs).append (hrest cs hcs)

/-- A word with the payload it calls for (R57). -/
theorem LeadsTo.transaction {cmd : Word} {payload : List Byte} (hlen : payload.length = payloadLength cmd) :
    LeadsTo lmax known (wordBytes cmd ++ payload) (asmKnown lmax known (decodeWord cmd payload)) := by
  rintro s rest - hline rfl rfl hport
  obtain ⟨t, hst, ht⟩ := runsTo_of_decode hline (decode_eq_ready.2 ⟨cmd, payload, hport, hlen, rfl⟩)
  exact ⟨1, t, hst, ht⟩

theorem LeadsTo.command {i : Instr} (h : asmCommand i = some bytes) :
    LeadsTo lmax known bytes (asmKnown lmax known (.command i)) := by
  obtain ⟨hwf, rfl⟩ := asmCommand_eq_some h
  rw [← decodeWord_encodeWord hwf]
  exact .transaction (length_payloadOf hwf)

theorem LeadsTo.raw {word : Nat} {payload : List Byte} (h : asmRaw word payload = some bytes) :
    LeadsTo lmax known bytes (asmKnownLine lmax known (.cmd word)) := by
  obtain ⟨hlen, rfl⟩ := asmRaw_eq_some h
  rw [asmKnownLine, asmKnown_decodeWord lmax known _ [] payload]
  exact .transaction hlen

/-- A buffer length is known of a LOADED block, and is its LEN. -/
theorem loadedLength_eq_some {s : State} {len : Nat} (h : loadedLength s = some len) : s.v = .loaded ∧ len = s.len.toNat := by
  unfold loadedLength at h
  split at h
  · cases h; exact ⟨‹_›, rfl⟩
  · cases h

/-- SCAN's READs (R94). -/
theorem LeadsTo.scan {w : Nat} (h : asmScan known w = some bytes) : LeadsTo lmax known bytes known := by
  rintro s rest hs hline - rfl hport
  obtain ⟨len, hlen, hw, hmax, rfl⟩ := asmScan_eq_some h
  obtain ⟨hv, rfl⟩ := loadedLength_eq_some hlen
  refine ⟨_, _, ⟨run_scanReads hs hv hw hmax hline hport, rfl, hline, rfl, ?_⟩, rfl⟩
  exact List.length_append.trans (by rw [length_passAnswers])

/-- An assembled program. -/
theorem LeadsTo.program {lines : List AsmLine} (h : assembleFrom lmax known lines = some bytes) :
    LeadsTo lmax known bytes (asmKnownAfter lmax known lines) := by
  fun_induction assembleFrom lmax known lines generalizing bytes with
  | case1 known => cases h; exact .nil
  | case2 known pos width lines ih => exact .join h (fun _ => .command) fun _ => ih
  | case4 known len ns lines bs hbs ih => exact .join h (fun _ => .command) fun _ => ih
  | case5 known lines ih => exact .join h (fun _ => .command) fun _ => ih
  | case7 known word ns lines hop bs hbs ih => exact .join h (fun _ => .raw) fun _ => ih
  | case10 known word lines _ hop ih => exact .join h (fun _ => .raw) fun _ => ih
  | case12 known w lines ih => exact .join h (fun _ => .scan) fun _ => ih
  -- The refusals: `h` says that the program assembles.
  | case3 | case6 | case8 | case9 | case11 => cases h

/-- A refused rest refuses the whole. -/
theorem asmJoin_eq_none_of_rest {first rest rest' : Option (List Byte)} (h : asmJoin first rest = none)
    (hrest : rest = none → rest' = none) : asmJoin first rest' = none := by
  cases first with
  | none => rfl
  | some bs =>
    cases rest with
    | none => rw [hrest rfl]; rfl
    | some cs => cases h

/-- A SCAN line behind refused lines does not mend them: only a `.bytes` line could. -/
theorem assembleFrom_append_scan_eq_none {lines : List AsmLine} (h : assembleFrom lmax known lines = none) (w : Nat) :
    assembleFrom lmax known (lines ++ [.scan w]) = none := by
  fun_induction assembleFrom lmax known lines with
  | case1 known => cases h
  | case2 known pos width lines ih => exact asmJoin_eq_none_of_rest h ih
  | case3 known len ns lines hbs => rw [List.cons_append, assembleFrom, hbs]
  | case4 known len ns lines bs hbs ih =>
    rw [List.cons_append, assembleFrom, hbs]
    exact asmJoin_eq_none_of_rest h ih
  | case5 known lines ih => exact asmJoin_eq_none_of_rest h ih
  | case6 known word ns lines hop hbs =>
    rw [List.cons_append, List.cons_append, assembleFrom, if_pos hop, hbs]
  | case7 known word ns lines hop bs hbs ih =>
    rw [List.cons_append, List.cons_append, assembleFrom, if_pos hop, hbs]
    exact asmJoin_eq_none_of_rest h ih
  | case8 known word ns lines hop => rw [List.cons_append, List.cons_append, assembleFrom, if_neg hop]
  | case9 known word lines hlines hop =>
    have hbytes : ∀ ns rest, lines ++ [.scan w] ≠ .bytes ns :: rest := by
      intro ns rest heq
      cases lines with
      | nil => cases heq
      | cons line lines => cases heq; exact hlines _ _ rfl
    rw [List.cons_append, assembleFrom_cmd _ _ _ _ hbytes, if_pos hop]
  | case10 known word lines _ hop ih =>
    rw [List.cons_append, assembleFrom_cmd_of_noPayload _ hop]
    exact asmJoin_eq_none_of_rest h ih
  | case11 known ns lines => rw [List.cons_append, assembleFrom]
  | case12 known w lines ih => exact asmJoin_eq_none_of_rest h ih

/-- A program that ends in SCAN is an assembled program, and then the READs of SCAN for the length known by then. -/
theorem assembleFrom_append_scan {lines : List AsmLine} {w : Nat}
    (h : assembleFrom lmax known (lines ++ [.scan w]) = some bytes) :
    ∃ bs cs, assembleFrom lmax known lines = some bs ∧ asmScan (asmKnownAfter lmax known lines) w = some cs ∧
      bytes = bs ++ cs := by
  cases hlines : assembleFrom lmax known lines with
  | none => cases (assembleFrom_append_scan_eq_none hlines w).symm.trans h
  | some bs =>
    rw [assembleFrom_append hlines, assembleFrom, assembleFrom, asmJoin_nil] at h
    obtain ⟨cs, hcs, rfl⟩ := Option.map_eq_some_iff.1 h
    exact ⟨bs, cs, rfl, hcs, rfl⟩

end Lines

end Sys2Proof.Machine

open Sys2Proof Sys2Proof.Machine

/-- Settles O43: each line leads to the length the assembler knows after it, and so do the lines in sequence. -/
theorem assemblerKnowsTheLoadedLength : Obligations.AssemblerKnowsTheLoadedLength := by
  intro s lines bytes rest hs hline h hport
  obtain ⟨n, t, hst, ht⟩ := LeadsTo.program h s rest hs hline rfl rfl hport
  exact ⟨n, t, hst.run, hst.inbox, hst.resetLine, hst.lmax, hst.responses, ht.symm⟩

/-- Settles O44: the lines before SCAN lead to a LOADED block whose LEN the assembler knows, and there SCAN's READs are the pass. -/
theorem assembledScanReadsTheLoadedBuffer : Obligations.AssembledScanReadsTheLoadedBuffer := by
  intro s lines w bytes rest hs hline h hport
  obtain ⟨bs, cs, hbs, hcs, rfl⟩ := assembleFrom_append_scan h
  obtain ⟨n, u, hsu, hu⟩ := LeadsTo.program hbs s (cs ++ rest) hs hline rfl rfl (hport.trans (List.append_assoc ..))
  obtain ⟨len, hlen, hw, hmax, rfl⟩ := asmScan_eq_some hcs
  obtain ⟨hv, rfl⟩ := loadedLength_eq_some (hu.trans hlen)
  refine ⟨n, u, passAnswers u w (total u / w), _, hsu.run, hv, hsu.responses, ?_, ?_,
    fun r hr => statusField_of_mem_passAnswers hr, scan_of_loaded hv hw hmax, rfl⟩
  · rw [hsu.inbox, scanReads, List.flatMap_map]
  · exact (run_add hsu.run _).trans (run_scanReads (hs.run hsu.run) hv hw hmax hsu.resetLine hsu.inbox)

end

section
/-! PROOF. Exceptions (`60_exceptions.md` R104 to R106): the word an error is answered with, that an error does nothing else, and the
errors of the lifecycle. -/

namespace Sys2Proof.Machine

/-- An error's response, DATA 0, is `STATUS << 61` (R106). -/
theorem responseWord_zero (st : Status) : responseWord st 0 = st.code.zeroExtend 64 <<< 61 := by cases st <;> rfl

/-- A response whose STATUS is not OK has DATA 0 (R60). -/
theorem eq_responseWord_zero_of_error {tr : Transaction} {s t : State} {rsp : Word} (h : runTransaction tr s = .next t)
    (hout : t.outbox = s.outbox ++ [rsp]) (herr : statusField rsp ≠ Status.ok.code) : ∃ st, rsp = responseWord st 0 := by
  obtain ⟨st, d, hrsp, hdata⟩ := runTransaction_responds h
  obtain rfl : rsp = responseWord st d := (List.append_singleton_inj.1 (hout.symm.trans hrsp)).2
  rcases hdata with rfl | ⟨rfl, -⟩
  · exact ⟨st, rfl⟩
  · exact absurd (statusField_responseWord .ok d) herr

/-- An error does nothing but answer (R106): of the things a transaction can do, those that write V, LEN or BUF are answered OK. -/
theorem eq_push_of_error {tr : Transaction} {s t : State} {rsp : Word} (h : runTransaction tr s = .next t)
    (hout : t.outbox = s.outbox ++ [rsp]) (herr : statusField rsp ≠ Status.ok.code) : t = s.push rsp := by
  have hok : rsp ≠ responseWord .ok 0 := fun hrsp => herr (hrsp ▸ statusField_responseWord .ok 0)
  rcases runTransaction_cases h with ⟨rsp', rfl⟩ | ⟨-, -, rfl⟩ | ⟨_, _, _, -, -, -, rfl⟩
  · rw [(List.append_singleton_inj.1 hout).2]
  · exact absurd (List.append_singleton_inj.1 hout).2.symm hok
  · exact absurd (List.append_singleton_inj.1 hout).2.symm hok

end Sys2Proof.Machine

open Sys2Proof Sys2Proof.Machine

/-- Settles O28: an error's word has DATA 0, so it is its STATUS alone, and a transaction that does more than answer answers OK. -/
theorem errorsChangeNothing : Obligations.ErrorsChangeNothing := by
  intro tr s t r h hout herr
  refine ⟨?_, eq_push_of_error h hout herr⟩
  obtain ⟨st, rfl⟩ := eq_responseWord_zero_of_error h hout herr
  have hst : (responseWord st 0).extractLsb 63 61 = st.code := statusField_responseWord st 0
  rw [hst, responseWord_zero]

/-- Settles O23: the lifecycle check is the first of each command, before any operand is looked at (R69). -/
theorem lifecycleErrorsAreAnswered : Obligations.LifecycleErrorsAreAnswered :=
  ⟨fun _ _ _ hv => execRead_of_empty hv, fun _ hv => execDestroy_of_empty hv, fun _ _ _ hv => execConstruct_of_loaded hv⟩

end

section
/-! PROOF. Reset and hazards (`70_reset_and_hazards.md` R120 to R129): the port with and without a whole transaction, the race of
reset with a transaction, and READs right after CONSTRUCT and DESTROY. -/

namespace Sys2Proof

/-- Less than a command word is no transaction. -/
theorem decode_of_length_lt {bytes : List Byte} (h : bytes.length < 8) :
    decode bytes = if bytes.isEmpty then .idle else .shortWord := by
  rw [decode, takeWord_eq_none.2 h]

/-- A word with fewer bytes behind it than it calls for is no transaction (R57, R125). -/
theorem decode_wordBytes_of_short {cmd : Word} {bytes : List Byte} (h : bytes.length < payloadLength cmd) :
    decode (wordBytes cmd ++ bytes) = .shortPayload := by
  simp only [decode, takeWord_wordBytes, if_pos h]

end Sys2Proof

namespace Sys2Proof.Machine

theorem serve_of_idle {s : State} (h : decode s.inbox = .idle) : serve s = .fault .portIdle := by
  rw [serve, h]

theorem serve_of_shortWord {s : State} (h : decode s.inbox = .shortWord) : serve s = .fault .shortCommandWord := by
  rw [serve, h]

theorem serve_of_shortPayload {s : State} (h : decode s.inbox = .shortPayload) : serve s = .fault .shortPayload := by
  rw [serve, h]

/-- With no reset event, a whole transaction is taken off the port and answered once (R129). -/
theorem step_answers_once {s : State} {tr : Transaction} {rest : List Byte} (hline : s.resetLine = [])
    (hd : decode s.inbox = .ready tr rest) : ∃ t r, step s = .next t ∧ t.inbox = rest ∧ t.outbox = s.outbox ++ [r] := by
  obtain ⟨t, ht⟩ := runTransaction_answers hd (s.setInbox rest)
  obtain ⟨_, _, hout, -⟩ := runTransaction_responds ht
  exact ⟨t, _, (step_of_no_reset hline).trans ((serve_of_ready hd).trans ht), runTransaction_inbox ht, hout⟩

/-- A whole transaction has one response for a given V, LEN, BUF and LMAX: the port, the reset input and the draws do not bear
on it. -/
theorem runTransaction_responds_alike {bytes rest : List Byte} {tr : Transaction} (hd : decode bytes = .ready tr rest)
    (s : State) :
    ∃ rsp, ∀ t, SameBlock s t → t.lmax = s.lmax → ∃ u, runTransaction tr t = .next u ∧ u.outbox = t.outbox ++ [rsp] := by
  match tr, hd with
  | .illegal _, _ => exact ⟨_, fun _ _ _ => ⟨_, rfl, rfl⟩⟩
  | .command (.read pos width), _ =>
    obtain ⟨rsp, hrsp⟩ := execRead_answers_alike pos width s
    exact ⟨rsp, fun t h _ => ⟨_, hrsp t h, rfl⟩⟩
  | .command (.construct len payload), hd =>
    cases hv : s.v with
    | loaded => exact ⟨_, fun t h _ => ⟨_, execConstruct_of_loaded (h.v.trans hv), rfl⟩⟩
    | empty =>
      by_cases hcap : len ≤ s.lmax
      · refine ⟨responseWord .ok 0, fun t h hlmax => ?_⟩
        obtain ⟨m, hm, -⟩ := execConstruct_of_fits (h.v.trans hv) (hcap.trans_eq hlmax.symm) (payload_length_of_decode hd).1
        exact ⟨_, hm, rfl⟩
      · exact ⟨_, fun t h hlmax => ⟨_, execConstruct_of_tooLong (h.v.trans hv) (by omega), rfl⟩⟩
  | .command .destroy, _ =>
    cases hv : s.v with
    | empty => exact ⟨_, fun t h _ => ⟨_, execDestroy_of_empty (h.v.trans hv), rfl⟩⟩
    | loaded => exact ⟨_, fun t h _ => ⟨_, execDestroy_of_loaded (h.v.trans hv), rfl⟩⟩

/-- Two states that agree on V, LEN, BUF and LMAX answer a whole transaction with the same word. -/
theorem runTransaction_same_response {bytes rest : List Byte} {tr : Transaction} {s t u : State}
    (hd : decode bytes = .ready tr rest) (h : SameBlock s t) (hlmax : t.lmax = s.lmax) (hu : runTransaction tr t = .next u) :
    ∃ w r, runTransaction tr s = .next w ∧ w.outbox = s.outbox ++ [r] ∧ u.outbox = t.outbox ++ [r] := by
  obtain ⟨r, hr⟩ := runTransaction_responds_alike hd s
  obtain ⟨w, hw, hwout⟩ := hr s (.refl s) rfl
  obtain ⟨u', hu', hout⟩ := hr t h hlmax
  cases hu'.symm.trans hu
  exact ⟨w, r, hw, hwout, hout⟩

/-- Reset that meets a whole transaction (R120): it completes before the reset, or leaves the port with no effect. -/
theorem resetRace_of_ready {s : State} {tr : Transaction} {rest : List Byte} (hd : decode s.inbox = .ready tr rest) :
    ∃ u, resetRace s = .next (applyReset u) ∧
      (runTransaction tr (s.draw.setInbox rest) = .next u ∨ u = s.draw.setInbox rest) := by
  cases hc : Config.resetRaceCompletes s.draws with
  | true =>
    obtain ⟨u, hu⟩ := runTransaction_answers hd (s.draw.setInbox rest)
    exact ⟨u, resetRace_of_completes hd hc hu, .inl hu⟩
  | false => exact ⟨_, resetRace_of_cancels hd hc, .inr rfl⟩

/-- The state a CONSTRUCT that passes its checks leaves, as the READ after it sees it (R82, R127). -/
theorem loads_of_execConstruct {len : Nat} {payload : List Byte} {s t : State} (hv : s.v = .empty) (hcap : len ≤ s.lmax)
    (hwf : (Instr.construct len payload).WF) (hbuf : s.buf.WF) (h : execConstruct len payload s = .next t) :
    t.v = .loaded ∧ total t = 8 * len ∧ ∀ k (hk : k < payload.length), t.buf.readByte k = payload[k] := by
  obtain ⟨hlt, hlen⟩ := wf_construct_iff.1 hwf
  obtain ⟨m, hm, hread⟩ := execConstruct_of_fits hv hcap hlen
  cases hm.symm.trans h
  exact ⟨rfl, congrArg (8 * ·) (Nat.mod_eq_of_lt hlt), hread hbuf⟩

end Sys2Proof.Machine

open Sys2Proof Sys2Proof.Machine

/-- Settles O7: the word and the payload it calls for are a whole transaction, whatever the word. -/
theorem everyTransactionIsAnsweredOnce : Obligations.EveryTransactionIsAnsweredOnce := by
  intro s cmd payload rest hline hport hlen
  exact step_answers_once hline (decode_eq_ready.2 ⟨cmd, payload, hport, hlen, rfl⟩)

/-- Settles O11, by the two ends of the race; the port and the reset input come out the same for either. -/
theorem resetDuringTransaction : Obligations.ResetDuringTransaction := by
  intro s line tr rest hline hd
  obtain ⟨u, hrace, hu⟩ := resetRace_of_ready (s := s.setResetLine line) hd
  have hport : u.inbox = rest ∧ u.resetLine = line := by
    rcases hu with hu | rfl
    · exact ⟨runTransaction_inbox hu, (runTransaction_frame hu).2⟩
    · exact ⟨rfl, rfl⟩
  obtain ⟨hinbox, hlater⟩ := hport
  refine ⟨applyReset u, (step_of_event hline).trans hrace, rfl, hinbox, hlater, ?_, fun hnil tr' rest' hd' => ?_⟩
  · rcases hu with hu | rfl
    · obtain ⟨w, r, hw, hwout, hout⟩ :=
        runTransaction_same_response (s := (s.setInbox rest).setResetLine [])
          (t := (s.setResetLine line).draw.setInbox rest) hd ⟨rfl, rfl, rfl⟩ rfl hu
      exact .inr ⟨w, r, hw, hwout, hout⟩
    · exact .inl rfl
  · obtain ⟨v, -, hv, hvinbox, -⟩ := step_answers_once (s := applyReset u) (hlater.trans hnil) (hinbox.symm ▸ hd')
    exact ⟨v, hv, hvinbox⟩

/-- Settles O40: CONSTRUCT leaves a LOADED block whose bits are the payload's, and DESTROY an EMPTY one. -/
theorem readAfterConstructSeesThePayload : Obligations.ReadAfterConstructSeesThePayload := by
  refine ⟨fun s t L pos width payload hs hwf hv hcap hw hmax hr ht => ?_, fun s t pos width hv ht => ?_⟩
  · obtain ⟨-, hlen⟩ := wf_construct_iff.1 hwf
    obtain ⟨-, hbuf, -⟩ := hs
    obtain ⟨htv, htotal, hread⟩ := loads_of_execConstruct hv hcap hwf hbuf ht
    obtain ⟨d, hd, hsum⟩ := exec_read_returns_fieldAt htv hw hmax (hr.trans_eq htotal.symm)
    refine ⟨d, hd, (hsum.trans (fieldAt_eq_sum t pos width)).trans (Finset.sum_congr rfl fun k hk => ?_)⟩
    have hk := Finset.mem_range.1 hk
    have hbyte : (pos + k) / 8 < payload.length := by omega
    rw [bufferBit, hread _ hbyte, List.getD_eq_getElem payload 0 hbyte]
  · cases (execDestroy_of_loaded hv).symm.trans ht
    exact execRead_of_empty rfl

/-- Settles O9: what the decoder finds on each of the three ports is no transaction. -/
theorem unframedPortStops : Obligations.UnframedPortStops := by
  intro s hline
  rw [step_of_no_reset hline]
  refine ⟨fun hnil => serve_of_idle (by rw [hnil]; rfl), fun hpos hlt => serve_of_shortWord ?_,
    fun cmd bytes hport hop hlt => serve_of_shortPayload ?_⟩
  · rw [decode_of_length_lt hlt, if_neg (mt List.isEmpty_iff.1 (List.ne_nil_of_length_pos hpos))]
  · have hop : opField cmd = 0b01#2 := hop
    rw [hport, decode_wordBytes_of_short]
    rwa [payloadLength, if_pos hop]

end
